-- ==== Sys2Proof/Word.lean ====
section
/-! DEFINITION. The data words of the SHA-512 compression engine (spec/00_scope.md R6, R9) and the pair that crosses
its command channel (spec/30_encoding.md R71, R74). -/

namespace Sys2Proof

/-- R9: a word is an unsigned integer in 0 .. 2^64 - 1; bit 63 is the most significant. Addition wraps (R90). -/
abbrev Word := BitVec 64

/-- A byte of a message or of a digest, on the host's side only (R53 to R55). -/
abbrev Byte := BitVec 8

/-- R74: a command is the pair (OP, DATA): an 8-bit code and a 64-bit data word. -/
structure Command where
  op   : BitVec 8
  data : Word
  deriving DecidableEq, Repr

end Sys2Proof
end

