-- ==== Sys2Proof/Config.lean ====
section
/-! DEFINITION. What is fixed for the machine: the phase codes of the sequencer (spec/10_state.md R26), the parameters
the spec fixes (spec/00_scope.md R6, R7), and the one source of free values. `STEP_CYCLES` (R7, R212) is not here: no rule
depends on it (DEDUCED, log entry 15). -/

namespace Sys2Proof

/-- R26: `phase` is 3 bits of SEQ. It takes five values; 5, 6 and 7 are never written by any rule. -/
abbrev Phase := BitVec 3

abbrev Phase.idle  : Phase := 0#3
abbrev Phase.sched : Phase := 1#3
abbrev Phase.loadv : Phase := 2#3
abbrev Phase.round : Phase := 3#3
abbrev Phase.fold  : Phase := 4#3

namespace Config

/-- R6: words of hash state. -/
abbrev NSTATE : Nat := 8
/-- R6: words of a block. -/
abbrev NBLOCK : Nat := 16
/-- R6: words of the message schedule. -/
abbrev NSCHED : Nat := 80
/-- R6: rounds for each block, and the number of round constants. -/
abbrev NROUND : Nat := 80

/-- R36, R200, U1: after a reset event each of the 112 words of `H`, `V`, `M`, `W` may hold any value, not
necessarily the same after two resets. This is the free value of draw number `n`: it has no body, so nothing can be proved
of it. The counter `State.draws` never gives one draw twice. DESIGN CHOICE, log entry 2
(safe). -/
opaque resetWord (n : Nat) : Word

end Config
end Sys2Proof
end

