-- ==== Sys2Proof/Machine/State.lean ====
section
/-! DEFINITION. The state of one engine (spec/10_state.md R20) with the ports of its command channel (spec/30_encoding.md
R70), as plain data. The ten fields `H` to `ECODE` are the complete state of the hardware; `cmds`, `rsp`, `turns` and
`draws` are the model's own: what the host offers, what the engine answered, who moves next, and how many free words reset
events have drawn. -/

namespace Sys2Proof.Machine

/-- R8, R61: whose turn the next step is. All steps form one total order; the spec leaves the order of the agents open but
for the precedence of reset (R201), so it is data. DESIGN CHOICE, log entry 3. -/
inductive Turn where
  /-- R200: the environment asserts `rst` at this edge. The host withdraws the first `withdrawn` of the commands that
  were not accepted (R201: "if the host still offers it after reset"). -/
  | reset (withdrawn : Nat)
  /-- The host's offered command is accepted if `cmd_ready` (R73); if it is held, or none is offered, the engine moves. -/
  | host
  /-- An enabled micro-step is taken before any offered command is looked at (D27); if none is enabled, the offered command is
  accepted (R71). -/
  | engine
  deriving DecidableEq, Repr

/-- Why the machine stops. -/
inductive Fault where
  /-- Raised by the step when SEQ holds a value for which no behaviour is defined (R80, U6: "stuck or refuse"). Safe: no
  reachable state has one (R37), and nothing is claimed of what a real engine would do. DESIGN CHOICE, log entry 6. -/
  | sequencerUndefined
  /-- Raised by the meaning of a micro-step that is asked to run in a state whose SEQ does not select it (the
  'Selection' line of R115, R116, R126, R127, R130). The step never raises it. Safe. DESIGN CHOICE, log entry 7. -/
  | notSelected
  deriving DecidableEq, Repr

/-- Why an instruction has no meaning. -/
inductive Refusal where
  /-- Raised by an arm of `exec` that has no meaning yet; none is left. Safe. -/
  | notModelled (mnemonic : String)
  deriving DecidableEq, Repr

/-- R20 and R70. -/
structure State where
  /-- R21: the hash state, `H[0]` the first word of the digest. -/
  H      : Vector Word 8
  /-- R23: the working variables, `V[0]` = a to `V[7]` = h. -/
  V      : Vector Word 8
  /-- R24: the block buffer. -/
  M      : Vector Word 16
  /-- R25: the message schedule. -/
  W      : Vector Word 80
  /-- R26: SEQ[9:7]. -/
  phase  : Phase
  /-- R26: SEQ[6:0]. -/
  t      : BitVec 7
  /-- R29: H has been initialised since reset. -/
  HINIT  : Bool
  /-- R30: H holds the result of at least one completed block since the last INIT. -/
  DVALID : Bool
  /-- R31: a protocol error has occurred since reset. -/
  ERR    : Bool
  /-- R31: the cause code of the first protocol error since reset. -/
  ECODE  : BitVec 4
  /-- R70, R71, R208: the commands the host has not had accepted yet, in order; the head is on `cmd_op`, `cmd_data` with
  `cmd_valid` = 1, and stays there until it is accepted. DESIGN CHOICE, log entry 4. -/
  cmds   : List Command
  /-- R70, R72: the response channel at the edge just taken: `some v` is `rsp_valid` = 1 with `rsp_data` = v, `none` is
  `rsp_valid` = 0, when `rsp_data` has no value (U2). DESIGN CHOICE, log entry 5. -/
  rsp    : Option Word
  /-- Who moves at the next steps; when it is empty the host's offer goes first, but right after an answered poll the engine
  does (R211). DESIGN CHOICE, log entry 3. -/
  turns  : List Turn
  /-- How many free words reset events have drawn (U1). DESIGN CHOICE, log entry 2. -/
  draws  : Nat
  deriving DecidableEq, Repr

/-- R26: the sequencer register, SEQ = phase[2:0] t[6:0]. -/
def State.seq (s : State) : BitVec 10 := s.phase ++ s.t

/-- R36: the machine right after reset. The spec gives `phase`, `t` and the flags; it leaves the 112 words of `H`, `V`, `M`,
`W` unspecified, and zero is this model's choice for them (DESIGN CHOICE, log entry 1, unsafe: nothing may be claimed that rests on it). No
command is offered, no turn is fixed. -/
def State.reset : State where
  H      := Vector.replicate 8 0#64
  V      := Vector.replicate 8 0#64
  M      := Vector.replicate 16 0#64
  W      := Vector.replicate 80 0#64
  phase  := Phase.idle
  t      := 0#7
  HINIT  := false
  DVALID := false
  ERR    := false
  ECODE  := 0#4
  cmds   := []
  rsp    := none
  turns  := []
  draws  := 0

end Sys2Proof.Machine
end

