-- ==== Sys2Proof/Machine/Flags.lean ====
section
/-! DEFINITION. The flags and the status register (spec/10_state.md R28 to R32), and the cause codes of protocol errors
(spec/60_exceptions.md R181). No arithmetic sets a flag (R31). -/

namespace Sys2Proof.Machine

/-- R28: BUSY is not a register: it is `phase != IDLE`. -/
def State.busy (s : State) : Bool := decide (s.phase ≠ Phase.idle)

/-- R32, R145: STATUS = zext_64({ECODE[3:0], ERR, DVALID, HINIT, BUSY}): a view, bits 63:8 are 0. -/
def State.status (s : State) : Word :=
  (s.ECODE ++ BitVec.ofBool s.ERR ++ BitVec.ofBool s.DVALID ++ BitVec.ofBool s.HINIT ++ BitVec.ofBool s.busy).setWidth 64

/-- R181: the three causes of a protocol error (U8: a model's error-code type has three causes). -/
inductive Cause where
  /-- Any illegal OP (R78). -/
  | illegalCommand
  /-- NEXT with HINIT = 0 (R143). -/
  | nextBeforeInit
  /-- RDDIG with HINIT = 0 (R144). -/
  | readBeforeInit
  deriving DecidableEq, Repr

/-- R181: the code written to ECODE. -/
def causeCode : Cause → BitVec 4
  | .illegalCommand => 1#4
  | .nextBeforeInit => 2#4
  | .readBeforeInit => 3#4

end Sys2Proof.Machine
end

