-- ==== Sys2Proof/Machine/Operands.lean ====
section
/-! DEFINITION. The one operand form of the hardware, "the element with index IDX" (spec/30_encoding.md R76, R147), and the
constant offsets at which the engine reads its arrays (spec/20_memory.md R50, R52). -/

namespace Sys2Proof.Machine

/-- R11, R50: element `i` of a register array or ROM. Every index the machine computes is in range (R51, R52); outside the
range the spec defines no access and this reads 0, which no meaning ever uses (DESIGN CHOICE, log entry 17). -/
def elem {n : Nat} (A : Vector Word n) (i : Nat) : Word := A.getD i 0#64

/-- R11: `A[i] <- v`. Outside the range nothing is written (DESIGN CHOICE, log entry 17). -/
def setElem {n : Nat} (A : Vector Word n) (i : Nat) (v : Word) : Vector Word n := A.setIfInBounds i v

/-- R52, R127: the round constant of round `t`. -/
def roundConstant (t : BitVec 7) : Word := elem romK t.toNat

/-- R142: the array index of WRBLK, the IDX field as an unsigned integer 0 to 15. -/
def blockIndex (i : BitVec 4) : Nat := i.toNat

/-- R144: the array index of RDDIG, 0 to 7. -/
def digestIndex (i : BitVec 3) : Nat := i.toNat

end Sys2Proof.Machine
end

