-- ==== Sys2Proof/Machine/Ops.lean ====
section
/-! DEFINITION. The named operations the meanings are built from: writing the sequencer and the arrays, the response,
acceptance and selection, the protocol error (the hardware's one exception), and the reset event. -/

namespace Sys2Proof.Machine

/-- The outcome of a step of this machine. -/
abbrev Outcome := Host.Outcome State Fault Refusal

/-- R11: `SEQ <- (p, n)`. -/
def State.setSeq (s : State) (p : Phase) (n : BitVec 7) : State := { s with phase := p, t := n }

/-- R72: drive the response channel for this edge: `some v` is `respond v`, `none` is no response. -/
def State.respond (s : State) (r : Option Word) : State := { s with rsp := r }

/-- R21: `H` is written as a whole. -/
def State.writeH (s : State) (h : Vector Word 8) : State := { s with H := h }

/-- R23: `V` is written as a whole. -/
def State.writeV (s : State) (v : Vector Word 8) : State := { s with V := v }

/-- R24, R142: `M[i] <- v`. -/
def State.writeM (s : State) (i : Nat) (v : Word) : State := { s with M := setElem s.M i v }

/-- R25: `W[t] <- v`. -/
def State.writeW (s : State) (i : Nat) (v : Word) : State := { s with W := setElem s.W i v }

/-- R29: write HINIT. -/
def State.setHINIT (s : State) (b : Bool) : State := { s with HINIT := b }

/-- R30: write DVALID. -/
def State.setDVALID (s : State) (b : Bool) : State := { s with DVALID := b }

/-- R184: `raise ProtocolError(c)`, the one exception of the hardware: ECODE keeps the first cause, ERR is set, every other
element of the state is as before. Control goes nowhere: no vector, no saved state, and so no return (R186). -/
def State.raiseProtocolError (s : State) (c : Cause) : State :=
  { s with ECODE := if s.ERR then s.ECODE else causeCode c, ERR := true }

/-- R73, R201: `cmd_ready` is a function of the phase and of the offered code only, and 0 while `rst` is asserted; 0x50 is
RDSTAT. -/
def cmdReady (rst : Bool) (phase : Phase) (op : BitVec 8) : Bool :=
  !rst && (decide (phase = Phase.idle) || decide (op = 0x50#8))

/-- R71, R73: an edge at which no command is accepted and no micro-step is taken: nothing happens, and no response is
driven. DESIGN CHOICE, log entry 12. -/
def idleEdge (s : State) : State := s.respond none

/-- R73: the effect of a command that is accepted only in phase IDLE. While BUSY it is held: nothing happens (R71;
DEDUCED, log entry 8). -/
def whenIdle (s : State) (effect : State → State) : Outcome :=
  if s.phase = Phase.idle then .next (effect s) else .next (idleEdge s)

/-- The 'Selection' line of a micro-step (R80): it runs when SEQ = (p, n) and `n` is in the micro-step's range; else no
behaviour is defined (U6) and the machine stops by name. DESIGN CHOICE, log entry 7. -/
def whenSelected (s : State) (p : Phase) (n : BitVec 7) (inRange : Bool) (effect : State → State) : Outcome :=
  if s.phase = p ∧ s.t = n ∧ inRange then .next (effect s) else .fault .notSelected

/-- R78, R146, R185: an accepted command whose code is illegal: ProtocolError(1), no response, no other effect; held while
BUSY like any other. -/
def illegalCommand (s : State) : Outcome :=
  whenIdle s fun s => (s.raiseProtocolError .illegalCommand).respond none

/-- U1: `n` free words, draws number `first`, `first + 1`, and on. -/
def freeWords (first n : Nat) : Vector Word n := Vector.ofFn fun i => Config.resetWord (first + i.val)

/-- R36, R200, R201: the reset step, from any state: the control state takes its reset values; each of the 112 words of
`H`, `V`, `M`, `W` is a free value, drawn anew at each reset (DESIGN CHOICE, log entry 2); the host keeps offering what it did not
withdraw (DESIGN CHOICE, log entry 14). -/
def resetEvent (s : State) (withdrawn : Nat) : State where
  H      := freeWords s.draws 8
  V      := freeWords (s.draws + 8) 8
  M      := freeWords (s.draws + 16) 16
  W      := freeWords (s.draws + 32) 80
  phase  := Phase.idle
  t      := 0#7
  HINIT  := false
  DVALID := false
  ERR    := false
  ECODE  := 0#4
  cmds   := s.cmds.drop withdrawn
  rsp    := none
  turns  := s.turns
  draws  := s.draws + 112

end Sys2Proof.Machine
end

