-- ==== Sys2Proof/Machine/Commands.lean ====
section
/-! DEFINITION. The meanings of the five host commands (spec/44_commands.md R141 to R145). Each executes whole when it is
accepted (spec/30_encoding.md R71); all but RDSTAT are accepted only in phase IDLE (R73). The step takes the command off
`cmds`; a meaning never does. -/

namespace Sys2Proof.Machine

/-- R141: `H <- IV`, HINIT set, DVALID cleared; no response, no error in any state. -/
def execInit (s : State) : Outcome :=
  whenIdle s fun s => (((s.writeH romIV).setHINIT true).setDVALID false).respond none

/-- R142: `M[i] <- v`; no response, no error; it does not need HINIT. -/
def execWrblk (i : BitVec 4) (v : Word) (s : State) : Outcome :=
  whenIdle s fun s => (s.writeM (blockIndex i) v).respond none

/-- R143: with HINIT = 0, ProtocolError(2) and nothing else; else DVALID cleared and the sequencer started. No response. -/
def execNext (s : State) : Outcome :=
  whenIdle s fun s =>
    if s.HINIT then ((s.setDVALID false).setSeq Phase.sched 0#7).respond none
    else (s.raiseProtocolError .nextBeforeInit).respond none

/-- R144: with HINIT = 0, respond 0 and raise ProtocolError(3); else respond `H[i]`. The read is not destructive (R22). -/
def execRddig (i : BitVec 3) (s : State) : Outcome :=
  whenIdle s fun s =>
    if s.HINIT then s.respond (some (elem s.H (digestIndex i)))
    else (s.raiseProtocolError .readBeforeInit).respond (some 0#64)

/-- R145: respond STATUS, in every phase; nothing else changes. -/
def execRdstat (s : State) : Outcome := .next (s.respond (some s.status))

end Sys2Proof.Machine
end

