-- ==== Sys2Proof/Syntax.lean ====
section
/-! DEFINITION. The instructions: the five host commands (spec/30_encoding.md R77, spec/44_commands.md R140) and the five
micro-steps of the engine sequencer (R80, spec/42_message_schedule.md, spec/43_compression.md). The table of
spec/opcode_table.json gives WEXP three rows and ROUND two, one for each match/mask pair of one micro-step (R80): one
constructor each (DEDUCED, log entry 20). An illegal command code (R78) is no row and no constructor: the step takes its protocol
error (DEDUCED, log entry 11). -/

namespace Sys2Proof

inductive Instr where
  /-- R141: initialise the hash state. -/
  | init
  /-- R142: write one block word, `M[i] <- v`. -/
  | wrblk (i : BitVec 4) (v : Word)
  /-- R143: compress the block buffer into the hash state. -/
  | next
  /-- R144: read one word of the hash state; the three bits hold 0 to 7. -/
  | rddig (i : BitVec 3)
  /-- R145: read the status register. -/
  | rdstat
  /-- R115: copy block word `t` into the schedule. -/
  | wcopy (t : BitVec 7)
  /-- R116: expand schedule word `t`. -/
  | wexp (t : BitVec 7)
  /-- R126: load the working variables. -/
  | loadv
  /-- R127: round `t`. -/
  | round (t : BitVec 7)
  /-- R130: add the working variables back into the hash state. -/
  | fold
  deriving DecidableEq, Repr

/-- R140: is it one of the host's five commands (and not a micro-step of the engine)? -/
def Instr.isCommand : Instr → Bool
  | .init => true
  | .wrblk _ _ => true
  | .next => true
  | .rddig _ => true
  | .rdstat => true
  | .wcopy _ => false
  | .wexp _ => false
  | .loadv => false
  | .round _ => false
  | .fold => false

/-- The mnemonic of spec/opcode_table.json. -/
def Instr.mnemonic : Instr → String
  | .init => "INIT"
  | .wrblk _ _ => "WRBLK"
  | .next => "NEXT"
  | .rddig _ => "RDDIG"
  | .rdstat => "RDSTAT"
  | .wcopy _ => "WCOPY"
  | .wexp _ => "WEXP"
  | .loadv => "LOADV"
  | .round _ => "ROUND"
  | .fold => "FOLD"

end Sys2Proof
end

