-- ==== Sys2Proof/WellFormed.lean ====
section
/-! DEFINITION. Which terms of `Instr` are instructions: the ranges of `t` (spec/30_encoding.md R80). The indices of WRBLK
and RDDIG are of the width of their legal range (R51, R75), so every value of them is legal. -/

namespace Sys2Proof

/-- R80: WCOPY t has 0 <= t <= 15, WEXP t has 16 <= t <= 79, ROUND t has 0 <= t <= 79; every operand of a command is
legal. -/
def Instr.wellFormed : Instr → Bool
  | .init => true
  | .wrblk _ _ => true
  | .next => true
  | .rddig _ => true
  | .rdstat => true
  | .wcopy t => decide (t.toNat ≤ 15)
  | .wexp t => decide (16 ≤ t.toNat ∧ t.toNat ≤ 79)
  | .loadv => true
  | .round t => decide (t.toNat ≤ 79)
  | .fold => true

end Sys2Proof
end

