-- ==== Sys2Proof/Decode.lean ====
section
/-! DEFINITION. The decoder of the two encoding spaces of spec/opcode_table.json, total and refusing by name, and after it
the encoder. A host command is the pair (OP, DATA), OP = MAJ[7:4] IDX[3:0] (spec/30_encoding.md R74 to R79); a micro-step is
the 10-bit value of SEQ = phase[2:0] t[6:0] that selects it (R80). -/

namespace Sys2Proof

/-- What is decoded: an offered command, or the value of the sequencer register. -/
inductive Code where
  | command (c : Command)
  | seq (q : BitVec 10)
  deriving DecidableEq, Repr

/-- Why a code is no instruction. -/
inductive DecodeError where
  /-- R78: the code is none of the 27 legal ones. The engine takes ProtocolError(1) for it. -/
  | illegalCommand (op : BitVec 8)
  /-- R80: SEQ = (IDLE, 0): no micro-step is enabled. -/
  | noneEnabled
  /-- R80, U6: a value of SEQ for which no behaviour is defined. -/
  | undefinedSequencer (q : BitVec 10)
  deriving DecidableEq, Repr

/-- R74: the major code, OP[7:4]. -/
def opMajor (op : BitVec 8) : BitVec 4 := op.extractLsb' 4 4

/-- R74, R76: the index field, OP[3:0], an unsigned integer, not scaled, not extended. -/
def opIndex (op : BitVec 8) : BitVec 4 := op.extractLsb' 0 4

/-- R77, R78, R79: the decoder is a function of the 8 bits of OP alone; DATA is the operand of WRBLK and is ignored by
every other command. -/
def decodeCommand (c : Command) : Except DecodeError Instr :=
  if c.op = 0x10#8 then .ok .init
  else if opMajor c.op = 0x2#4 then .ok (.wrblk (opIndex c.op) c.data)
  else if c.op = 0x30#8 then .ok .next
  else if c.op.extractLsb' 3 5 = 0b01000#5 then .ok (.rddig (c.op.extractLsb' 0 3))
  else if c.op = 0x50#8 then .ok .rdstat
  else .error (.illegalCommand c.op)

/-- R26: SEQ[9:7]. -/
def seqPhase (q : BitVec 10) : Phase := q.extractLsb' 7 3

/-- R26: SEQ[6:0]. -/
def seqIndex (q : BitVec 10) : BitVec 7 := q.extractLsb' 0 7

/-- R115: WCOPY t is selected for 0 <= t <= 15. -/
def wcopyRange (t : BitVec 7) : Bool := decide (t.toNat ≤ 15)

/-- R116: WEXP t is selected for 16 <= t <= 79. -/
def wexpRange (t : BitVec 7) : Bool := decide (16 ≤ t.toNat ∧ t.toNat ≤ 79)

/-- R127: ROUND t is selected for 0 <= t <= 79. -/
def roundRange (t : BitVec 7) : Bool := decide (t.toNat ≤ 79)

/-- R80: the micro-step that the value of SEQ selects. -/
def decodeSeq (q : BitVec 10) : Except DecodeError Instr :=
  if seqPhase q = Phase.idle ∧ seqIndex q = 0#7 then .error .noneEnabled
  else if seqPhase q = Phase.sched ∧ wcopyRange (seqIndex q) then .ok (.wcopy (seqIndex q))
  else if seqPhase q = Phase.sched ∧ wexpRange (seqIndex q) then .ok (.wexp (seqIndex q))
  else if seqPhase q = Phase.loadv ∧ seqIndex q = 0#7 then .ok .loadv
  else if seqPhase q = Phase.round ∧ roundRange (seqIndex q) then .ok (.round (seqIndex q))
  else if seqPhase q = Phase.fold ∧ seqIndex q = 0#7 then .ok .fold
  else .error (.undefinedSequencer q)

/-- The decoder over both spaces. -/
def decode : Code → Except DecodeError Instr
  | .command c => decodeCommand c
  | .seq q => decodeSeq q

/-- The words of an instruction: R77 for a command, with DATA written as 0 where it is ignored (R82); R80 for a
micro-step. -/
def encode : Instr → Code
  | .init => .command ⟨0x10#8, 0#64⟩
  | .wrblk i v => .command ⟨0x2#4 ++ i, v⟩
  | .next => .command ⟨0x30#8, 0#64⟩
  | .rddig i => .command ⟨0b01000#5 ++ i, 0#64⟩
  | .rdstat => .command ⟨0x50#8, 0#64⟩
  | .wcopy t => .seq (Phase.sched ++ t)
  | .wexp t => .seq (Phase.sched ++ t)
  | .loadv => .seq (Phase.loadv ++ 0#7)
  | .round t => .seq (Phase.round ++ t)
  | .fold => .seq (Phase.fold ++ 0#7)

/-- One row of R77 or of the match/mask table of R80: a code `c` selects it when `(c AND mask) == match`. Commands are
rows over the 8 bits of OP, micro-steps over the 10 bits of SEQ. -/
structure TableRow where
  mnemonic : String
  command  : Bool
  pattern  : Nat
  mask     : Nat
  deriving DecidableEq, Repr

/-- The rows of R77 and R80, in the table's order. -/
def opcodeTable : List TableRow := [
  ⟨"INIT", true, 0x10, 0xFF⟩, ⟨"WRBLK", true, 0x20, 0xF0⟩, ⟨"NEXT", true, 0x30, 0xFF⟩, ⟨"RDDIG", true, 0x40, 0xF8⟩,
  ⟨"RDSTAT", true, 0x50, 0xFF⟩, ⟨"WCOPY", false, 0x080, 0x3F0⟩, ⟨"WEXP", false, 0x090, 0x3F0⟩,
  ⟨"WEXP", false, 0x0A0, 0x3E0⟩, ⟨"WEXP", false, 0x0C0, 0x3F0⟩, ⟨"LOADV", false, 0x100, 0x3FF⟩,
  ⟨"ROUND", false, 0x180, 0x3C0⟩, ⟨"ROUND", false, 0x1C0, 0x3F0⟩, ⟨"FOLD", false, 0x200, 0x3FF⟩]

/-- R77, R80: does the row's match/mask pair select the code? -/
def TableRow.selects (r : TableRow) : Code → Bool
  | .command c => r.command && (c.op.toNat &&& r.mask) == r.pattern
  | .seq q => !r.command && (q.toNat &&& r.mask) == r.pattern

/-- The two spaces of the table, told apart by the number of bits: a row of at most 8 bits is a command code (DATA above
it zero), a row of 9 to 16 bits a value of SEQ (10 bits in two bytes; bits 15:10 must be 0), a longer word OP followed by
DATA. DESIGN CHOICE, log entry 10. -/
def codeOfTableWord (nbits w : Nat) : Option Code :=
  if nbits ≤ 8 then some (.command ⟨BitVec.ofNat 8 w, BitVec.ofNat 64 (w >>> 8)⟩)
  else if nbits ≤ 16 then (if w < 1024 then some (.seq (BitVec.ofNat 10 w)) else none)
  else some (.command ⟨BitVec.ofNat 8 w, BitVec.ofNat 64 (w >>> 8)⟩)

/-- The instruction this decoder reads from an instruction whose bits are `w`, numbered as spec/opcode_table.json numbers
them (`none` where it refuses). -/
def decodeTableWord (nbits w : Nat) : Option Instr :=
  match codeOfTableWord nbits w with
  | some c => (decode c).toOption
  | none => none

end Sys2Proof
end

