-- ==== Sys2Proof/Machine/Mixing.lean ====
section
/-! DEFINITION. Word arithmetic and the six mixing functions (spec/40_mixing_functions.md). Addition modulo 2^64 (R90), AND,
XOR and NOT (R91) are those of `BitVec 64`. All are total, write nothing, set no flag (R101). -/

namespace Sys2Proof.Machine

/-- R92: right rotation by a constant, 0 < n < 64: bit i of the result is bit (i + n) mod 64 of `x`. -/
def rotr (x : Word) (n : Nat) : Word := x.rotateRight n

/-- R93: logical right shift: the vacated high bits are zeros. -/
def shr (x : Word) (n : Nat) : Word := x >>> n

/-- R94: "choose". -/
def ch (x y z : Word) : Word := (x &&& y) ^^^ (~~~x &&& z)

/-- R95: "majority". -/
def maj (x y z : Word) : Word := (x &&& y) ^^^ (x &&& z) ^^^ (y &&& z)

/-- R96. -/
def bigSigma0 (x : Word) : Word := rotr x 28 ^^^ rotr x 34 ^^^ rotr x 39

/-- R97. -/
def bigSigma1 (x : Word) : Word := rotr x 14 ^^^ rotr x 18 ^^^ rotr x 41

/-- R98: the third term is a shift. -/
def littleSigma0 (x : Word) : Word := rotr x 1 ^^^ rotr x 8 ^^^ shr x 7

/-- R99: the third term is a shift. -/
def littleSigma1 (x : Word) : Word := rotr x 19 ^^^ rotr x 61 ^^^ shr x 6

end Sys2Proof.Machine
end

