-- ==== Sys2Proof/Machine/Compression.lean ====
section
/-! DEFINITION. The micro-steps of the compression (spec/43_compression.md R126, R127, R130). The working variables a to h
are `V[0]` to `V[7]` (R125). -/

namespace Sys2Proof.Machine

/-- R127: T1 = h + BigSigma1(e) + Ch(e, f, g) + K[t] + W[t], a value inside the step (D8). -/
def roundT1 (V : Vector Word 8) (k w : Word) : Word :=
  elem V 7 + bigSigma1 (elem V 4) + ch (elem V 4) (elem V 5) (elem V 6) + k + w

/-- R127: T2 = BigSigma0(a) + Maj(a, b, c). -/
def roundT2 (V : Vector Word 8) : Word :=
  bigSigma0 (elem V 0) + maj (elem V 0) (elem V 1) (elem V 2)

/-- R127: the eight simultaneous assignments of ROUND t. -/
def roundVars (V : Vector Word 8) (k w : Word) : Vector Word 8 :=
  #v[roundT1 V k w + roundT2 V, elem V 0, elem V 1, elem V 2, elem V 3 + roundT1 V k w, elem V 4, elem V 5, elem V 6]

/-- R130: `H[i] + V[i]` for i in 0..7, each addition wrapping on its own. -/
def foldWords (H V : Vector Word 8) : Vector Word 8 :=
  #v[elem H 0 + elem V 0, elem H 1 + elem V 1, elem H 2 + elem V 2, elem H 3 + elem V 3,
     elem H 4 + elem V 4, elem H 5 + elem V 5, elem H 6 + elem V 6, elem H 7 + elem V 7]

/-- R126: `V <- H`, SEQ to (ROUND, 0). -/
def execLoadv (s : State) : Outcome :=
  whenSelected s Phase.loadv 0#7 true fun s => ((s.writeV s.H).setSeq Phase.round 0#7).respond none

/-- R127: one round with `K[t]` and `W[t]`; ROUND 79 hands over to FOLD. -/
def execRound (t : BitVec 7) (s : State) : Outcome :=
  whenSelected s Phase.round t (roundRange t) fun s =>
    let s := s.writeV (roundVars s.V (roundConstant t) (elem s.W t.toNat))
    (if t = 79#7 then s.setSeq Phase.fold 0#7 else s.setSeq Phase.round (t + 1#7)).respond none

/-- R130: `H <- H + V` word by word, DVALID set, SEQ to (IDLE, 0). -/
def execFold (s : State) : Outcome :=
  whenSelected s Phase.fold 0#7 true fun s =>
    (((s.writeH (foldWords s.H s.V)).setDVALID true).setSeq Phase.idle 0#7).respond none

end Sys2Proof.Machine
end

