-- ==== Sys2Proof/Machine/Schedule.lean ====
section
/-! DEFINITION. The micro-steps of the message schedule generator (spec/42_message_schedule.md R115, R116). -/

namespace Sys2Proof.Machine

/-- R116: the word WEXP t writes, from `W[t-2]`, `W[t-7]`, `W[t-15]`, `W[t-16]`, all below `t` (R52). -/
def expandWord (W : Vector Word 80) (t : Nat) : Word :=
  littleSigma1 (elem W (t - 2)) + elem W (t - 7) + littleSigma0 (elem W (t - 15)) + elem W (t - 16)

/-- R115: `W[t] <- M[t]`, SEQ to (SCHED, t + 1). -/
def execWcopy (t : BitVec 7) (s : State) : Outcome :=
  whenSelected s Phase.sched t (wcopyRange t) fun s =>
    ((s.writeW t.toNat (elem s.M t.toNat)).setSeq Phase.sched (t + 1#7)).respond none

/-- R116: the recurrence; WEXP 79 hands over to LOADV. -/
def execWexp (t : BitVec 7) (s : State) : Outcome :=
  whenSelected s Phase.sched t (wexpRange t) fun s =>
    let s := s.writeW t.toNat (expandWord s.W t.toNat)
    (if t = 79#7 then s.setSeq Phase.loadv 0#7 else s.setSeq Phase.sched (t + 1#7)).respond none

end Sys2Proof.Machine
end

