-- ==== Sys2Proof/Machine/Dispatch.lean ====
section
/-! DEFINITION. One arm for each instruction of Instr, each one direct call of its meaning. -/

namespace Sys2Proof.Machine

def exec (i : Instr) (s : State) : Host.Outcome State Fault Refusal :=
  match i with
  | .init => Sys2Proof.Machine.execInit s
  | .wrblk k v => Sys2Proof.Machine.execWrblk k v s
  | .next => Sys2Proof.Machine.execNext s
  | .rddig k => Sys2Proof.Machine.execRddig k s
  | .rdstat => Sys2Proof.Machine.execRdstat s
  | .wcopy t => Sys2Proof.Machine.execWcopy t s
  | .wexp t => Sys2Proof.Machine.execWexp t s
  | .loadv => Sys2Proof.Machine.execLoadv s
  | .round t => Sys2Proof.Machine.execRound t s
  | .fold => Sys2Proof.Machine.execFold s

end Sys2Proof.Machine
end

