-- ==== Sys2Proof/Machine/Fetch.lean ====
section
/-! DEFINITION. Which agent moves next and what it does (spec/00_scope.md R8, spec/30_encoding.md R71, R73, R80,
spec/70_reset_and_hazards.md R201, R211): what other machines call fetching. And how a given code is placed so that the next
step runs it. -/

namespace Sys2Proof.Machine

/-- What the next step is, with the state it starts from (turn and accepted command taken off). -/
inductive Selection where
  /-- R200: the reset event. -/
  | reset (withdrawn : Nat) (s : State)
  /-- An accepted legal command, or the micro-step that SEQ selects. -/
  | run (i : Instr) (s : State)
  /-- R78: an accepted illegal command. -/
  | illegal (s : State)
  /-- R27, R80: nothing is offered and no micro-step is enabled. -/
  | idle (s : State)
  /-- U6: a SEQ value for which no behaviour is defined. DESIGN CHOICE, log entry 6. -/
  | stuck
  deriving DecidableEq, Repr

/-- R80: the micro-step that SEQ selects: exactly one is enabled in every reachable BUSY state and none in IDLE. -/
def selectMicroStep (s : State) : Selection :=
  match decodeSeq s.seq with
  | .ok i => .run i s
  | .error .noneEnabled => .idle s
  | .error _ => .stuck

/-- R73, R78: the offered command `c` is accepted; `s` is the state without it. -/
def acceptCommand (c : Command) (s : State) : Selection :=
  match decodeCommand c with
  | .ok i => .run i s
  | .error _ => .illegal s

/-- R26, U6: is SEQ one of the 163 values that a rule defines? -/
def seqDefined (q : BitVec 10) : Bool :=
  match decodeSeq q with
  | .ok _ => true
  | .error .noneEnabled => true
  | .error _ => false

/-- R71, R73, R211: the host's turn: the offered command is accepted if `cmd_ready`; a held or absent command leaves the
step to the engine, which is never blocked by it. -/
def selectHost (s : State) : Selection :=
  if seqDefined s.seq then
    match s.cmds with
    | c :: rest =>
      if cmdReady false s.phase c.op then acceptCommand c { s with cmds := rest } else selectMicroStep s
    | [] => selectMicroStep s
  else .stuck

/-- D27, R61: the engine's turn: an enabled micro-step is taken before any offered command is looked at; where none is enabled
the offered command has nothing to wait for and is accepted (R71). -/
def selectEngine (s : State) : Selection :=
  match decodeSeq s.seq with
  | .ok i => .run i s
  | .error _ => selectHost s

/-- R8, R61, R201: the next step in the total order. Where no turn is given the host's offer goes first, but after an edge that
answered a poll the engine does, so a host that polls at every edge never blocks it (R211). DESIGN CHOICE, log entry 3. -/
def select (s : State) : Selection :=
  match s.turns with
  | .reset n :: ts => .reset n { s with turns := ts }
  | .host :: ts => selectHost { s with turns := ts }
  | .engine :: ts => selectEngine { s with turns := ts }
  | [] => if s.rsp.isSome then selectEngine s else selectHost s

/-- Place a code so that the next step runs it: a command is offered first, with the host's turn, and the sequencer is put
to (IDLE, 0) if it would hold the command (R73) or is undefined (U6); a SEQ value is put into the sequencer, with the
engine's turn. DESIGN CHOICE, log entry 9. -/
def placeCode (s : State) : Code → State
  | .command c =>
    let s := { s with cmds := c :: s.cmds, turns := .host :: s.turns }
    if seqDefined s.seq && cmdReady false s.phase c.op then s else s.setSeq Phase.idle 0#7
  | .seq q => { s with phase := seqPhase q, t := seqIndex q, turns := .engine :: s.turns }

end Sys2Proof.Machine
end

