-- ==== Sys2Proof/Machine/Step.lean ====
section
/-! DEFINITION. One step of the machine: the next event in the total order of spec/20_memory.md R61. -/

namespace Sys2Proof.Machine

/-- R8, R61: a reset event, an accepted command, a micro-step, or an edge at which nothing happens. -/
def step (s : State) : Host.Outcome State Fault Refusal :=
  match select s with
  | .reset n s' => .next (resetEvent s' n)
  | .run i s' => exec i s'
  | .illegal s' => illegalCommand s'
  | .idle s' => .next (idleEdge s')
  | .stuck => .fault .sequencerUndefined

/-- The state with the instruction of the given table word (bits above `nbits` zero) placed where the next step takes it
from; a word of no space of the table changes nothing. DESIGN CHOICE, log entries 9 and 10. -/
def State.withFetchWord (s : State) (nbits w : Nat) : State :=
  match codeOfTableWord nbits w with
  | some c => placeCode s c
  | none => s

end Sys2Proof.Machine
end

