-- ==== Sys2Proof/Machine/Functions.lean ====
section
/-! DEFINITION. The function level of spec/00_scope.md R14: `Schedule` (R118), `Round` (R128), `Compress` (R131), `Chain`
(R149), pure functions on words, written from their own rules and not from the micro-steps. -/

namespace Sys2Proof.Machine

/-- R118: the first `n` words of `Schedule(B)`, each from the words before it. -/
def scheduleList (B : Vector Word 16) : Nat → List Word
  | 0 => []
  | t + 1 =>
    let S := scheduleList B t
    if t < 16 then S ++ [elem B t]
    else S ++ [littleSigma1 (S.getD (t - 2) 0#64) + S.getD (t - 7) 0#64 + littleSigma0 (S.getD (t - 15) 0#64)
      + S.getD (t - 16) 0#64]

/-- R118: `Schedule(B)`, eighty words, a function of the block alone. -/
def schedule (B : Vector Word 16) : Vector Word 80 :=
  let S := scheduleList B 80
  Vector.ofFn fun t => S.getD t.val 0#64

/-- R128: `Round(v, k, w)`. -/
def roundFn (v : Vector Word 8) (k w : Word) : Vector Word 8 :=
  let a := elem v 0
  let b := elem v 1
  let c := elem v 2
  let d := elem v 3
  let e := elem v 4
  let f := elem v 5
  let g := elem v 6
  let h := elem v 7
  let T1 := h + bigSigma1 e + ch e f g + k + w
  let T2 := bigSigma0 a + maj a b c
  #v[T1 + T2, a, b, c, d + T1, e, f, g]

/-- R131: `v_t`, the working variables after the first `t` rounds from `h` with the schedule `S`. -/
def roundsFn (S : Vector Word 80) (h : Vector Word 8) : Nat → Vector Word 8
  | 0 => h
  | t + 1 => roundFn (roundsFn S h t) (elem romK t) (elem S t)

/-- R131: `Compress(h, B)`. -/
def compress (h : Vector Word 8) (B : Vector Word 16) : Vector Word 8 :=
  let v := roundsFn (schedule B) h 80
  Vector.ofFn fun i => elem h i.val + elem v i.val

/-- R149: `Chain(B_0, ..., B_(n-1))` for the sequence of blocks in order. -/
def chain (blocks : List (Vector Word 16)) : Vector Word 8 := blocks.foldl compress romIV

end Sys2Proof.Machine
end

