-- ==== Sys2Proof/Machine/HostPadding.lean ====
section
/-! DEFINITION. The host's duties as pure functions (spec/45_host_padding.md): padding, the hash of a message, the digest as
bytes and as text. Nothing here is state or a step of the engine (R4, R5; DESIGN CHOICE, log entry 19). -/

namespace Sys2Proof.Machine

/-- R166: the one error kind of `Pad`; it has no numeric code (N15). -/
inductive PadError where
  /-- The bit length is 2^64 or more. A result of the host, never of the engine (R151, R195). -/
  | inputTooLarge
  deriving DecidableEq, Repr

/-- R162: the number of blocks of a message of `L` bytes, floor((L + 16) / 128) + 1. -/
def blockCount (L : Nat) : Nat := (L + 16) / 128 + 1

/-- R163: `BE64(x)`, eight bytes, most significant first. -/
def be64 (x : Word) : List Byte := (List.range 8).map fun k => x.extractLsb' (56 - 8 * k) 8

/-- R163: the padded byte stream, `msg || 0x80 || z zeros || 8 zeros || BE64(8L)` with z = 128n - L - 17. -/
def paddedBytes (msg : List Byte) : List Byte :=
  msg ++ [0x80#8] ++ List.replicate (128 * blockCount msg.length - msg.length - 17) 0#8
    ++ List.replicate 8 0#8 ++ be64 (BitVec.ofNat 64 (8 * msg.length))

/-- R54, R164: the word of the eight bytes of `P` from position `at0` on: big-endian, the first byte the most
significant: the sum of P[at0 + k] * 2^(8*(7-k)). -/
def packWord (P : List Byte) (at0 : Nat) : Word :=
  BitVec.ofNat 64 (((List.range 8).map fun k => (P.getD (at0 + k) 0#8).toNat * 2 ^ (8 * (7 - k))).sum)

/-- R164: block `j` of the byte stream: word `i` from the bytes 128j + 8i on. -/
def packBlock (P : List Byte) (j : Nat) : Vector Word 16 := Vector.ofFn fun i => packWord P (128 * j + 8 * i.val)

/-- R163, R166: `Pad(msg)`. -/
def pad (msg : List Byte) : Except PadError (List (Vector Word 16)) :=
  if 8 * msg.length < 2 ^ 64 then
    .ok ((List.range (blockCount msg.length)).map (packBlock (paddedBytes msg)))
  else .error .inputTooLarge

/-- R167: `SHA512(msg)`. -/
def sha512 (msg : List Byte) : Except PadError (Vector Word 8) :=
  match pad msg with
  | .ok blocks => .ok (chain blocks)
  | .error e => .error e

/-- R55, R168: `DigestBytes(h)[8i + k]` = bits [63-8k : 56-8k] of `h[i]`, 64 bytes. -/
def digestBytes (h : Vector Word 8) : List Byte :=
  (List.range 64).map fun m => (elem h (m / 8)).extractLsb' (56 - 8 * (m % 8)) 8

/-- R169: a lower-case hex digit. -/
def hexDigit (n : BitVec 4) : Char := ("0123456789abcdef".toList).getD n.toNat '0'

/-- R169: a word as exactly 16 hex digits, most significant first, leading zeros kept. -/
def hexWord (x : Word) : List Char := (List.range 16).map fun k => hexDigit (x.extractLsb' (60 - 4 * k) 4)

/-- R169: `Hex(h)`, 128 characters. -/
def hexString (h : Vector Word 8) : String := String.ofList ((List.range 8).flatMap fun i => hexWord (elem h i))

end Sys2Proof.Machine
end

