-- ==== Sys2Proof/Machine/HostCommands.lean ====
section
/-! DEFINITION. What the host sends: the text form of the commands (spec/30_encoding.md R82) and the pseudo-commands (R83),
as lists of commands for the field `cmds`. -/

namespace Sys2Proof.Machine

/-- R82: the (OP, DATA) pair of a line; a micro-step is no line of a host. -/
def hostCommand (i : Instr) : List Command :=
  match encode i with
  | .command c => [c]
  | .seq _ => []

/-- R82: the words are written as 0x followed by 16 hex digits. -/
def wordText (v : Word) : String := "0x" ++ String.ofList (hexWord v)

/-- R82: one command a line; a micro-step has no textual form. -/
def textOf : Instr → Option String
  | .init => some "INIT"
  | .wrblk i v => some ("WRBLK " ++ Nat.repr i.toNat ++ ", " ++ wordText v)
  | .next => some "NEXT"
  | .rddig i => some ("RDDIG " ++ Nat.repr i.toNat)
  | .rdstat => some "RDSTAT"
  | .wcopy _ => none
  | .wexp _ => none
  | .loadv => none
  | .round _ => none
  | .fold => none

/-- R83: `BLOCK w0, ..., w15`: sixteen WRBLK in index order and NEXT, 17 commands. -/
def blockCommands (B : Vector Word 16) : List Command :=
  ((List.range 16).flatMap fun i => hostCommand (.wrblk (BitVec.ofNat 4 i) (elem B i))) ++ hostCommand .next

/-- R83: `DIGEST`: RDDIG 0 to RDDIG 7. -/
def digestCommands : List Command := (List.range 8).flatMap fun i => hostCommand (.rddig (BitVec.ofNat 3 i))

/-- R83: `n` times RDSTAT, as a list of commands; how many a `WAIT` takes is `waitExpansion`. -/
def waitCommands (n : Nat) : List Command := List.replicate n ⟨0x50#8, 0#64⟩

/-- R150: INIT and then one BLOCK for each block in order. -/
def chainCommands (blocks : List (Vector Word 16)) : List Command :=
  hostCommand .init ++ blocks.flatMap blockCommands

/-- R83, R167: `HASH msg`: INIT, one BLOCK for each block of `Pad(msg)`, DIGEST; no command at all for an input too large
(R166). -/
def hashCommands (msg : List Byte) : Except PadError (List Command) :=
  match pad msg with
  | .ok blocks => .ok (chainCommands blocks ++ digestCommands)
  | .error e => .error e

end Sys2Proof.Machine
end

