-- ==== Sys2Proof/Machine/HostWait.lean ====
section
/-! DEFINITION. The pseudo-command WAIT (spec/30_encoding.md R83), the one whose length depends on the engine's answers: a host
that polls until BUSY is 0. -/

namespace Sys2Proof.Machine

/-- R83: the host of a `WAIT` offers one RDSTAT at a time, and the next when that one has been accepted (R208). -/
def State.offerPoll (s : State) : State := if s.cmds = [] then { s with cmds := waitCommands 1 } else s

/-- R83: "until the response has bit 0 (BUSY) = 0"; an edge without a response says nothing. -/
def readsIdle : Option Word → Bool
  | some v => !v.getLsbD 0
  | none => false

/-- R83: `WAIT`, begun when every earlier command has been accepted: the responses of its RDSTATs in order, up to and with the first
whose bit 0 is 0, and the state after it; none where `fuel` steps do not reach it or the machine stops. DESIGN CHOICE, log
entry 21. -/
def waitRun : Nat → State → Option (List Word × State)
  | 0, _ => none
  | fuel + 1, s =>
    match step s.offerPoll with
    | .next s' =>
      if readsIdle s'.rsp then some (s'.rsp.toList, s')
      else (waitRun fuel s').map fun r => (s'.rsp.toList ++ r.1, r.2)
    | .fault _ => none
    | .refused _ => none

/-- R83: the expansion of `WAIT` in a state: as many RDSTATs as it takes until a response has BUSY = 0. -/
def waitExpansion (fuel : Nat) (s : State) : Option (List Command) :=
  (waitRun fuel s).map fun r => waitCommands r.1.length

end Sys2Proof.Machine
end

