-- ==== Sys2Proof/Safety.lean ====
section
/-! DEFINITION. The predicates statements are made with: the reset states (spec/10_state.md R36), the invariants of every
reachable state (R37), what the arrays hold during a compression (spec/43_compression.md R131, R132), what a host can tell
apart (R35), and runs (spec/70_reset_and_hazards.md R204, R211). -/

namespace Sys2Proof.Machine

/-- R61: `n` steps in a row, stopping at the first fault or refusal (the same as Host.Core.run of this machine). -/
def run : Nat → State → Host.Outcome State Fault Refusal
  | 0, s => .next s
  | n + 1, s =>
    match step s with
    | .next s' => run n s'
    | .fault r => .fault r
    | .refused r => .refused r

/-- R8, R71: the next step looks at the host's offer first. -/
def HostTurn (s : State) : Prop := (s.turns = [] ∧ s.rsp = none) ∨ ∃ ts, s.turns = .host :: ts

/-- R8, D27: an enabled micro-step goes before any offer at the next step. -/
def EngineTurn (s : State) : Prop := (s.turns = [] ∧ s.rsp.isSome = true) ∨ ∃ ts, s.turns = .engine :: ts

/-- R201: `rst` is not asserted at the next step. -/
def NoReset (s : State) : Prop := ∀ n ts, s.turns ≠ .reset n :: ts

/-- R36: the control state is as after a reset event; the 112 words are anything. -/
def IsResetState (s : State) : Prop :=
  s.phase = Phase.idle ∧ s.t = 0#7 ∧ s.HINIT = false ∧ s.DVALID = false ∧ s.ERR = false ∧ s.ECODE = 0#4

/-- R37 (a): `phase` is one of the five. -/
def PhaseLegal (s : State) : Prop := s.phase.toNat ≤ 4

/-- R37 (b): `t` <= 79, and 0 in IDLE, LOADV and FOLD. -/
def IndexLegal (s : State) : Prop :=
  s.t.toNat ≤ 79 ∧ (s.phase = Phase.idle ∨ s.phase = Phase.loadv ∨ s.phase = Phase.fold → s.t = 0#7)

/-- R37 (c), (f): a busy engine has HINIT = 1 and DVALID = 0; DVALID = 1 implies HINIT = 1. -/
def FlagsLegal (s : State) : Prop :=
  (s.phase ≠ Phase.idle → s.HINIT = true ∧ s.DVALID = false) ∧ (s.DVALID = true → s.HINIT = true)

/-- R37 (d), (e): ERR = 0 exactly when ECODE = 0; ECODE is one of 0, 1, 2, 3. -/
def ErrorLegal (s : State) : Prop := (s.ERR = false ↔ s.ECODE = 0#4) ∧ s.ECODE.toNat ≤ 3

/-- R37: the invariants of every reachable state. -/
def Legal (s : State) : Prop := PhaseLegal s ∧ IndexLegal s ∧ FlagsLegal s ∧ ErrorLegal s

/-- R119, R131, R132: what `W` and `V` hold while the sequencer walks: the first `t` words of the schedule of `M` in SCHED,
all of it in LOADV and ROUND, the working variables after `t` rounds from `H` in ROUND, after all of them in FOLD. -/
def TracksCompress (s : State) : Prop :=
  (s.phase = Phase.sched → ∀ i, i < s.t.toNat → elem s.W i = elem (schedule s.M) i) ∧
  (s.phase = Phase.loadv → s.W = schedule s.M) ∧
  (s.phase = Phase.round → s.W = schedule s.M ∧ s.V = roundsFn (schedule s.M) s.H s.t.toNat) ∧
  (s.phase = Phase.fold → s.W = schedule s.M ∧ s.V = roundsFn (schedule s.M) s.H 80)

/-- R35, U1: the two states agree in all that any later command can depend on: `W` and `V` only where the sequencer has
written them in this compression, `H` only when HINIT = 1. -/
def SameView (a b : State) : Prop :=
  a.M = b.M ∧ a.phase = b.phase ∧ a.t = b.t ∧ a.HINIT = b.HINIT ∧ a.DVALID = b.DVALID ∧ a.ERR = b.ERR ∧
  a.ECODE = b.ECODE ∧ a.cmds = b.cmds ∧ a.rsp = b.rsp ∧ a.turns = b.turns ∧ a.draws = b.draws ∧
  (a.HINIT = true → a.H = b.H) ∧
  (a.phase = Phase.sched → ∀ i, i < a.t.toNat → elem a.W i = elem b.W i) ∧
  (a.phase = Phase.loadv → a.W = b.W) ∧
  (a.phase = Phase.round → a.W = b.W ∧ a.V = b.V) ∧
  (a.phase = Phase.fold → a.V = b.V)

/-- R27, R132: how many micro-steps are left before the phase is IDLE again; 162 right after an accepted NEXT. -/
def microStepsLeft (s : State) : Nat :=
  if s.phase = Phase.sched then 162 - s.t.toNat
  else if s.phase = Phase.loadv then 82
  else if s.phase = Phase.round then 81 - s.t.toNat
  else if s.phase = Phase.fold then 1
  else 0

/-- R73: no turn is given and no poll is offered: the offered command, if there is one, waits until the phase is IDLE. -/
def HostWaits (s : State) : Prop := s.turns = [] ∧ ∀ c, s.cmds.head? = some c → c.op ≠ 0x50#8

/-- R204: a run has ended when every command has been accepted and the phase is IDLE. -/
def RunEnded (s : State) : Prop := s.cmds = [] ∧ s.phase = Phase.idle

/-- R204: the responses of the next `n` steps in order of acceptance, up to a stop. That a step which is always enabled comes at last
is no part of it: see `WeaklyFair` (R211). -/
def responses : Nat → State → List Word
  | 0, _ => []
  | n + 1, s =>
    match step s with
    | .next s' => s'.rsp.toList ++ responses n s'
    | .fault _ => []
    | .refused _ => []

/-- R213: what the environment adds before a step: commands the host goes on to offer, and turns (R8). -/
def State.feed (s : State) (inputs : List Command × List Turn) : State :=
  { s with cmds := s.cmds ++ inputs.1, turns := s.turns ++ inputs.2 }

/-- R61, R213: a run without end, `inputs n` being what the environment adds before step `n`. -/
def OpenRun (inputs : Nat → List Command × List Turn) (states : Nat → State) : Prop :=
  ∀ n, step ((states n).feed (inputs n)) = .next (states (n + 1))

/-- R80: is the next step a micro-step? -/
def takesMicroStep (s : State) : Bool :=
  match select s with
  | .run i _ => !i.isCommand
  | _ => false

/-- R200: is the next step a reset event? -/
def takesReset (s : State) : Bool :=
  match select s with
  | .reset _ _ => true
  | _ => false

/-- R211: weak fairness of the sequencer, the only liveness assumption: if from some point on a micro-step is always enabled, one is
taken. A statement about runs without end takes it as a premise; a run in which the environment gives only finitely many turns
has it. -/
def WeaklyFair (inputs : Nat → List Command × List Turn) (states : Nat → State) : Prop :=
  ∀ n, (∀ m, n ≤ m → ∃ i, decodeSeq (states m).seq = .ok i) →
    ∃ m, n ≤ m ∧ takesMicroStep ((states m).feed (inputs m)) = true

end Sys2Proof.Machine
end

