-- ==== Sys2Proof/Certificates/Slice0/Obligations.lean ====
section
/-! DEFINITION. The statements for the provers, from the numbered rules of spec/. Every docstring names the rules; where a
clause rests on a choice of the model and not on a rule, it names the log entry. Everywhere: `cmds` and `turns` are the model's
(DESIGN CHOICE, log entries 3 and 4); `rsp` is the response channel of R70 and R72 and no element of the state of R20, so
`rsp := none` says R72's `rsp_valid` = 0 and nothing more (DESIGN CHOICE, log entry 5). -/

open Sys2Proof Sys2Proof.Machine

/-! ### Encoding -/

/-- R74 to R77, R80: no bit of an encoding is dropped. -/
def Obligations.EncodeThenDecodeGivesTheInstruction : Prop :=
  ∀ i : Instr, i.wellFormed = true → decode (encode i) = .ok i

/-- R74 to R80, the other direction: a decoded code is written back by the encoder (DATA only where it is an operand). -/
def Obligations.DecodeThenEncodeGivesTheCodeBack : Prop :=
  (∀ (c : Command) (i : Instr), decodeCommand c = .ok i →
    i.isCommand = true ∧ i.wellFormed = true ∧
    ∃ d, encode i = .command ⟨c.op, d⟩ ∧ (opMajor c.op = 0x2#4 → d = c.data)) ∧
  (∀ (q : BitVec 10) (i : Instr), decodeSeq q = .ok i →
    i.isCommand = false ∧ i.wellFormed = true ∧ encode i = .seq q)

/-- R77: the complete map of the 256 values of OP, by value and by match/mask row; 27 are legal; no two rows overlap. -/
def Obligations.CommandMapIsTheTable : Prop :=
  (∀ (op : BitVec 8) (d : Word), decodeCommand ⟨op, d⟩ =
    if op.toNat = 0x10 then .ok .init
    else if 0x20 ≤ op.toNat ∧ op.toNat ≤ 0x2F then .ok (.wrblk (BitVec.ofNat 4 (op.toNat - 0x20)) d)
    else if op.toNat = 0x30 then .ok .next
    else if 0x40 ≤ op.toNat ∧ op.toNat ≤ 0x47 then .ok (.rddig (BitVec.ofNat 3 (op.toNat - 0x40)))
    else if op.toNat = 0x50 then .ok .rdstat
    else .error (.illegalCommand op)) ∧
  (∀ (op : BitVec 8) (d : Word), (opcodeTable.filter fun r => r.selects (.command ⟨op, d⟩)).map TableRow.mnemonic =
    ((decodeCommand ⟨op, d⟩).toOption.map Instr.mnemonic).toList) ∧
  ((List.range 256).filter fun n => (decodeCommand ⟨BitVec.ofNat 8 n, 0#64⟩).toOption.isSome).length = 27

/-- R80: the micro-step that each of the 1024 values of SEQ selects, by value and by match/mask row; 162 select one; and a
state that meets the invariants has an enabled micro-step exactly when it is BUSY. -/
def Obligations.SequencerValueSelectsTheMicroStep : Prop :=
  (∀ q : BitVec 10, decodeSeq q =
    if q.toNat = 0 then .error .noneEnabled
    else if 0x080 ≤ q.toNat ∧ q.toNat ≤ 0x08F then .ok (.wcopy (BitVec.ofNat 7 (q.toNat - 0x080)))
    else if 0x090 ≤ q.toNat ∧ q.toNat ≤ 0x0CF then .ok (.wexp (BitVec.ofNat 7 (q.toNat - 0x080)))
    else if q.toNat = 0x100 then .ok .loadv
    else if 0x180 ≤ q.toNat ∧ q.toNat ≤ 0x1CF then .ok (.round (BitVec.ofNat 7 (q.toNat - 0x180)))
    else if q.toNat = 0x200 then .ok .fold
    else .error (.undefinedSequencer q)) ∧
  (∀ q : BitVec 10, (opcodeTable.filter fun r => r.selects (.seq q)).map TableRow.mnemonic =
    ((decodeSeq q).toOption.map Instr.mnemonic).toList) ∧
  ((List.range 1024).filter fun n => (decodeSeq (BitVec.ofNat 10 n)).toOption.isSome).length = 162 ∧
  (∀ s : State, Legal s → (s.phase ≠ Phase.idle ↔ ∃ i, decodeSeq s.seq = .ok i))

/-- R77, R80: a few words written out from the tables of the spec. -/
def Obligations.WordsWrittenFromTheSpecDecode : Prop :=
  decodeCommand ⟨0b00010000#8, 0xFFFFFFFFFFFFFFFF#64⟩ = .ok .init ∧
  decodeCommand ⟨0b00101111#8, 0x18#64⟩ = .ok (.wrblk 15#4 0x18#64) ∧
  decodeCommand ⟨0b01000111#8, 0#64⟩ = .ok (.rddig 7#3) ∧
  decodeCommand ⟨0b01001000#8, 0#64⟩ = .error (.illegalCommand 0x48#8) ∧
  decodeSeq 0b0010001111#10 = .ok (.wcopy 15#7) ∧
  decodeSeq 0b0011001111#10 = .ok (.wexp 79#7) ∧
  decodeSeq 0b0111001111#10 = .ok (.round 79#7) ∧
  decodeSeq 0b1000000000#10 = .ok .fold

/-! ### The step -/

/-- R71, R73: on the host's turn, or on the engine's when the phase is IDLE, an offered command that `cmd_ready` lets in is taken
off the channel and executed whole; what the step adds is taking it off `cmds` and its turn off `turns` (DESIGN CHOICE, log
entries 3 and 4). -/
def Obligations.StepRunsTheAcceptedCommand : Prop :=
  ∀ (s : State) (c : Command) (rest : List Command) (i : Instr),
    HostTurn s ∨ (EngineTurn s ∧ s.phase = Phase.idle) → seqDefined s.seq = true → s.cmds = c :: rest →
    cmdReady false s.phase c.op = true → decodeCommand c = .ok i →
    step s = exec i { s with cmds := rest, turns := s.turns.tail }

/-- R27, R80, R211: on the engine's turn, or when the host's command is held or absent, the micro-step that SEQ selects runs. -/
def Obligations.StepRunsTheSelectedMicroStep : Prop :=
  ∀ (s : State) (i : Instr),
    EngineTurn s ∨ (HostTurn s ∧ ∀ c, s.cmds.head? = some c → cmdReady false s.phase c.op = false) →
    decodeSeq s.seq = .ok i →
    step s = exec i { s with turns := s.turns.tail }

/-- R27: in (IDLE, 0) no micro-step is enabled: with no command to accept, an edge passes and nothing changes but that no
response is driven (DESIGN CHOICE, log entry 12). -/
def Obligations.IdleEdgeChangesNothing : Prop :=
  ∀ s : State, NoReset s → s.cmds = [] → s.phase = Phase.idle → s.t = 0#7 →
    step s = .next { s with turns := s.turns.tail, rsp := none }

/-- R73: `cmd_ready`; in IDLE every offered command, legal or illegal, is accepted; while BUSY RDSTAT is accepted and every other
command is held: it stays offered and raises no error. -/
def Obligations.CommandsAreAcceptedOrHeld : Prop :=
  (∀ (p : Phase) (op : BitVec 8), cmdReady false p op = true ↔ p = Phase.idle ∨ op = 0x50#8) ∧
  (∀ (s : State) (c : Command) (rest : List Command), NoReset s → s.phase = Phase.idle → s.t = 0#7 →
    s.cmds = c :: rest → ∃ s', step s = .next s' ∧ s'.cmds = rest) ∧
  (∀ (s : State) (d : Word) (rest : List Command), HostTurn s → seqDefined s.seq = true →
    s.cmds = ⟨0x50#8, d⟩ :: rest →
    step s = .next { s with cmds := rest, turns := s.turns.tail, rsp := some s.status }) ∧
  (∀ (s s' : State) (c : Command) (rest : List Command), NoReset s → s.phase ≠ Phase.idle →
    s.cmds = c :: rest → c.op ≠ 0x50#8 → step s = .next s' →
    s'.cmds = s.cmds ∧ s'.ERR = s.ERR ∧ s'.ECODE = s.ECODE ∧ s'.HINIT = s.HINIT ∧ s'.M = s.M ∧ s'.rsp = none)

/-- R78, R146: which codes are illegal, and all that an accepted one does; while BUSY it is held like any other. -/
def Obligations.IllegalCommandOnlyRecordsErrorOne : Prop :=
  (∀ (op : BitVec 8) (d : Word), decodeCommand ⟨op, d⟩ = .error (.illegalCommand op) ↔
    (op.toNat ≤ 0x0F ∨ (0x11 ≤ op.toNat ∧ op.toNat ≤ 0x1F) ∨ (0x31 ≤ op.toNat ∧ op.toNat ≤ 0x3F) ∨
      (0x48 ≤ op.toNat ∧ op.toNat ≤ 0x4F) ∨ 0x51 ≤ op.toNat)) ∧
  (∀ (s : State) (c : Command) (rest : List Command) (e : DecodeError), NoReset s → s.phase = Phase.idle → s.t = 0#7 →
    s.cmds = c :: rest → decodeCommand c = .error e →
    step s = .next { s with cmds := rest, turns := s.turns.tail, ERR := true,
                            ECODE := if s.ERR then s.ECODE else 1#4, rsp := none }) ∧
  (∀ (s : State) (c : Command) (rest : List Command) (e : DecodeError), s.phase ≠ Phase.idle →
    s.cmds = c :: rest → decodeCommand c = .error e → cmdReady false s.phase c.op = false)

/-- R36, R200, R201: a reset turn is taken in every state, before any command or micro-step; the control state takes its reset
values, the 112 words are fresh free values, and what the host did not withdraw stays offered (DESIGN CHOICE, log
entries 2 and 14). -/
def Obligations.ResetEventTakesPrecedence : Prop :=
  ∀ (s : State) (n : Nat) (ts : List Turn), s.turns = .reset n :: ts →
    ∃ s', step s = .next s' ∧ IsResetState s' ∧ s'.rsp = none ∧ s'.cmds = s.cmds.drop n ∧ s'.turns = ts ∧
      s'.draws = s.draws + 112 ∧
      (∀ i, i < 8 → elem s'.H i = Config.resetWord (s.draws + i)) ∧
      (∀ i, i < 8 → elem s'.V i = Config.resetWord (s.draws + 8 + i)) ∧
      (∀ i, i < 16 → elem s'.M i = Config.resetWord (s.draws + 16 + i)) ∧
      (∀ i, i < 80 → elem s'.W i = Config.resetWord (s.draws + 32 + i))

/-- U6 (R26, R80 define no behaviour): at an undefined value of SEQ the machine stops by name, whatever is offered, unless it is
reset (the model's choice between the two treatments U6 allows: DESIGN CHOICE, log entry 6). -/
def Obligations.UndefinedSequencerStopsTheMachine : Prop :=
  ∀ s : State, NoReset s → seqDefined s.seq = false → step s = .fault .sequencerUndefined

/-! ### The host commands -/

/-- R141: the encoding (DATA ignored), acceptance only in IDLE, the effect with all else unchanged, and INIT twice is the same as
once. -/
def Obligations.InitLoadsTheInitialState : Prop :=
  (∀ d : Word, decodeCommand ⟨0x10#8, d⟩ = .ok .init) ∧
  (∀ s : State, s.phase = Phase.idle →
    exec .init s = .next { s with H := romIV, HINIT := true, DVALID := false, rsp := none }) ∧
  (∀ p : Phase, cmdReady false p 0x10#8 = true ↔ p = Phase.idle) ∧
  (∀ s u : State, s.phase = Phase.idle → exec .init s = .next u → exec .init u = .next u)

/-- R142: the encoding, acceptance only in IDLE, the one word written with all else unchanged; of two writes to one index the last
is the one used, and writes to two indices can be made in either order. -/
def Obligations.WrblkWritesOneBlockWord : Prop :=
  (∀ (i : BitVec 4) (v : Word), decodeCommand ⟨0x20#8 + i.setWidth 8, v⟩ = .ok (.wrblk i v)) ∧
  (∀ (i : BitVec 4) (v : Word) (s : State), s.phase = Phase.idle →
    exec (.wrblk i v) s = .next { s with M := setElem s.M i.toNat v, rsp := none } ∧
    elem (setElem s.M i.toNat v) i.toNat = v ∧
    ∀ j, j ≠ i.toNat → elem (setElem s.M i.toNat v) j = elem s.M j) ∧
  (∀ (p : Phase) (i : BitVec 4), cmdReady false p (0x20#8 + i.setWidth 8) = true ↔ p = Phase.idle) ∧
  (∀ (i j : BitVec 4) (v w : Word) (s u : State), s.phase = Phase.idle → exec (.wrblk i v) s = .next u →
    (i = j → exec (.wrblk j w) u = exec (.wrblk j w) s) ∧
    (i ≠ j → ∃ u', exec (.wrblk j w) s = .next u' ∧ exec (.wrblk j w) u = exec (.wrblk i v) u'))

/-- R143, NEXT's own effect (the 162 micro-steps after it are a statement of their own): acceptance only in IDLE; with HINIT = 1
DVALID is cleared and the sequencer started; with HINIT = 0 ProtocolError(2) and nothing else. -/
def Obligations.NextStartsTheSequencer : Prop :=
  (∀ d : Word, decodeCommand ⟨0x30#8, d⟩ = .ok .next) ∧
  (∀ s : State, s.phase = Phase.idle → s.HINIT = true →
    exec .next s = .next { s with DVALID := false, phase := Phase.sched, t := 0#7, rsp := none }) ∧
  (∀ s : State, s.phase = Phase.idle → s.HINIT = false →
    exec .next s = .next { s with ERR := true, ECODE := if s.ERR then s.ECODE else 2#4, rsp := none }) ∧
  (∀ p : Phase, cmdReady false p 0x30#8 = true ↔ p = Phase.idle)

/-- R144: acceptance only in IDLE; with HINIT = 1 the response is `H[i]` and nothing else changes; with HINIT = 0 the response is 0
with ProtocolError(3). -/
def Obligations.RddigReadsOneStateWord : Prop :=
  (∀ (i : BitVec 3) (d : Word), decodeCommand ⟨0x40#8 + i.setWidth 8, d⟩ = .ok (.rddig i)) ∧
  (∀ (op : BitVec 8) (d : Word), 0x48 ≤ op.toNat → op.toNat ≤ 0x4F →
    decodeCommand ⟨op, d⟩ = .error (.illegalCommand op)) ∧
  (∀ (i : BitVec 3) (s : State), s.phase = Phase.idle → s.HINIT = true →
    exec (.rddig i) s = .next { s with rsp := some (elem s.H i.toNat) }) ∧
  (∀ (i : BitVec 3) (s : State), s.phase = Phase.idle → s.HINIT = false →
    exec (.rddig i) s =
      .next { s with ERR := true, ECODE := if s.ERR then s.ECODE else 3#4, rsp := some 0x0000000000000000#64 }) ∧
  (∀ (p : Phase) (i : BitVec 3), cmdReady false p (0x40#8 + i.setWidth 8) = true ↔ p = Phase.idle)

/-- R71, R73: while BUSY every command but RDSTAT, legal or illegal, is held: asked to run then, it changes nothing (DEDUCED, log
entry 8). -/
def Obligations.HeldCommandsChangeNothing : Prop :=
  ∀ (i : Instr) (s : State), s.phase ≠ Phase.idle → i.isCommand = true → i ≠ .rdstat →
    exec i s = .next { s with rsp := none } ∧ illegalCommand s = .next { s with rsp := none }

/-- R145: in every phase the response is the status word, and nothing else changes. -/
def Obligations.RdstatReadsTheStatus : Prop :=
  (∀ d : Word, decodeCommand ⟨0x50#8, d⟩ = .ok .rdstat) ∧
  (∀ (s : State) (v : Word),
    v = (s.ECODE ++ BitVec.ofBool s.ERR ++ BitVec.ofBool s.DVALID ++ BitVec.ofBool s.HINIT
          ++ BitVec.ofBool (decide (s.phase ≠ Phase.idle))).setWidth 64 →
    exec .rdstat s = .next { s with rsp := some v }) ∧
  (∀ (p : Phase), cmdReady false p 0x50#8 = true)

/-- R32: the fields of STATUS, bit by bit, and its value after reset. -/
def Obligations.StatusFieldsAreViews : Prop :=
  (∀ s : State,
    (s.status.getLsbD 0 = true ↔ s.phase ≠ Phase.idle) ∧ s.status.getLsbD 1 = s.HINIT ∧
    s.status.getLsbD 2 = s.DVALID ∧ s.status.getLsbD 3 = s.ERR ∧ s.status.extractLsb' 4 4 = s.ECODE ∧
    s.status.extractLsb' 8 56 = 0#56) ∧
  (∀ s : State, IsResetState s → s.status = 0x0000000000000000#64)

/-- R184: the one exception: ECODE keeps the first cause, ERR is set, nothing else changes; and it is all that each of the three
offending commands does (but for RDDIG's zero response). -/
def Obligations.ProtocolErrorAction : Prop :=
  (causeCode .illegalCommand = 1#4 ∧ causeCode .nextBeforeInit = 2#4 ∧ causeCode .readBeforeInit = 3#4) ∧
  (∀ (s : State) (c : Cause),
    s.raiseProtocolError c = { s with ECODE := if s.ERR = false then causeCode c else s.ECODE, ERR := true }) ∧
  (∀ s : State, s.phase = Phase.idle →
    illegalCommand s = .next ((s.raiseProtocolError .illegalCommand).respond none)) ∧
  (∀ s : State, s.phase = Phase.idle → s.HINIT = false →
    exec .next s = .next ((s.raiseProtocolError .nextBeforeInit).respond none) ∧
    ∀ i, exec (.rddig i) s = .next ((s.raiseProtocolError .readBeforeInit).respond (some 0#64)))

/-! ### The micro-steps -/

/-- R115. -/
def Obligations.WcopyCopiesABlockWord : Prop :=
  ∀ (t : BitVec 7) (s : State), t.toNat ≤ 15 → s.phase = Phase.sched → s.t = t →
    s.seq.toNat = 0x080 + t.toNat ∧ decodeSeq s.seq = .ok (.wcopy t) ∧
    exec (.wcopy t) s =
      .next { s with W := setElem s.W t.toNat (elem s.M t.toNat), phase := Phase.sched, t := t + 1#7, rsp := none } ∧
    elem (setElem s.W t.toNat (elem s.M t.toNat)) t.toNat = elem s.M t.toNat ∧
    ∀ j, j ≠ t.toNat → elem (setElem s.W t.toNat (elem s.M t.toNat)) j = elem s.W j

/-- R116. -/
def Obligations.WexpExpandsAScheduleWord : Prop :=
  ∀ (t : BitVec 7) (s : State), 16 ≤ t.toNat → t.toNat ≤ 79 → s.phase = Phase.sched → s.t = t →
    s.seq.toNat = 0x080 + t.toNat ∧ decodeSeq s.seq = .ok (.wexp t) ∧
    ∃ w, w = littleSigma1 (elem s.W (t.toNat - 2)) + elem s.W (t.toNat - 7) + littleSigma0 (elem s.W (t.toNat - 15))
              + elem s.W (t.toNat - 16) ∧
      exec (.wexp t) s =
        .next { s with W := setElem s.W t.toNat w, phase := if t = 79#7 then Phase.loadv else Phase.sched,
                       t := if t = 79#7 then 0#7 else t + 1#7, rsp := none } ∧
      elem (setElem s.W t.toNat w) t.toNat = w ∧
      ∀ j, j ≠ t.toNat → elem (setElem s.W t.toNat w) j = elem s.W j

/-- R126. -/
def Obligations.LoadvLoadsTheWorkingVariables : Prop :=
  ∀ s : State, s.phase = Phase.loadv → s.t = 0#7 →
    s.seq = 0x100#10 ∧ decodeSeq s.seq = .ok .loadv ∧
    exec .loadv s = .next { s with V := s.H, phase := Phase.round, t := 0#7, rsp := none }

/-- R127, with a to h the values of `V[0]` to `V[7]` before the step. -/
def Obligations.RoundUpdatesTheWorkingVariables : Prop :=
  ∀ (t : BitVec 7) (s : State) (a b c d e f g h T1 T2 : Word), t.toNat ≤ 79 → s.phase = Phase.round → s.t = t →
    s.V = #v[a, b, c, d, e, f, g, h] →
    T1 = h + bigSigma1 e + ch e f g + elem romK t.toNat + elem s.W t.toNat →
    T2 = bigSigma0 a + maj a b c →
    s.seq.toNat = 0x180 + t.toNat ∧ decodeSeq s.seq = .ok (.round t) ∧
    exec (.round t) s =
      .next { s with V := #v[T1 + T2, a, b, c, d + T1, e, f, g], phase := if t = 79#7 then Phase.fold else Phase.round,
                     t := if t = 79#7 then 0#7 else t + 1#7, rsp := none }

/-- R130. -/
def Obligations.FoldAddsIntoTheHashState : Prop :=
  ∀ s : State, s.phase = Phase.fold → s.t = 0#7 →
    s.seq = 0x200#10 ∧ decodeSeq s.seq = .ok .fold ∧
    exec .fold s = .next { s with H := Vector.ofFn fun i : Fin 8 => elem s.H i.val + elem s.V i.val, DVALID := true,
                                  phase := Phase.idle, t := 0#7, rsp := none }

/-- The 'Selection' lines of R115, R116, R126, R127, R130 give a micro-step no effect in a state whose SEQ does not select it: its
meaning stops there by name (the model's: DESIGN CHOICE, log entry 7); the step never asks for it. -/
def Obligations.UnselectedMicroStepStops : Prop :=
  ∀ (i : Instr) (s : State), i.isCommand = false → decodeSeq s.seq ≠ .ok i → exec i s = .fault .notSelected

/-! ### Frames and whole-machine rules -/

/-- R20 (the column 'written by'), R21 to R25, R29 to R31, R72: which instruction writes which element of the state; everything
else is unchanged. `cmds` and `turns` are the step's to change, `draws` a reset event's. -/
def Obligations.EveryInstructionKeepsWhatItDoesNotWrite : Prop :=
  ∀ (i : Instr) (s s' : State), exec i s = .next s' →
    (i ≠ .init → i ≠ .fold → s'.H = s.H) ∧
    (i ≠ .loadv → (∀ t, i ≠ .round t) → s'.V = s.V) ∧
    ((∀ k v, i ≠ .wrblk k v) → s'.M = s.M) ∧
    (∀ k v, i = .wrblk k v → ∀ j, j ≠ k.toNat → elem s'.M j = elem s.M j) ∧
    ((∀ t, i ≠ .wcopy t ∧ i ≠ .wexp t) → s'.W = s.W) ∧
    (∀ t, i = .wcopy t ∨ i = .wexp t → ∀ j, j ≠ t.toNat → elem s'.W j = elem s.W j) ∧
    (i.isCommand = true → i ≠ .next → s'.phase = s.phase ∧ s'.t = s.t) ∧
    (i ≠ .init → s'.HINIT = s.HINIT) ∧
    (i ≠ .init → i ≠ .next → i ≠ .fold → s'.DVALID = s.DVALID) ∧
    (i ≠ .next → (∀ k, i ≠ .rddig k) → s'.ERR = s.ERR ∧ s'.ECODE = s.ECODE) ∧
    (i ≠ .rdstat → (∀ k, i ≠ .rddig k) → s'.rsp = none) ∧
    s'.cmds = s.cmds ∧ s'.turns = s.turns ∧ s'.draws = s.draws

/-- R180, R181: no value of `H`, `M`, `W`, `V` or DATA makes an instruction fail: the error state changes only when NEXT or RDDIG
is executed in IDLE with HINIT = 0. -/
def Obligations.ErrorsComeOnlyFromUseBeforeInit : Prop :=
  ∀ (i : Instr) (s s' : State), exec i s = .next s' → (s'.ERR ≠ s.ERR ∨ s'.ECODE ≠ s.ECODE) →
    s.phase = Phase.idle ∧ s.HINIT = false ∧ (i = .next ∨ ∃ k, i = .rddig k)

/-- R29, R31, R186: without a reset no step clears ERR, changes the first cause, or clears HINIT. -/
def Obligations.ErrorAndHinitAreStickyUntilReset : Prop :=
  ∀ s s' : State, NoReset s → step s = .next s' →
    (s.ERR = true → s'.ERR = true ∧ s'.ECODE = s.ECODE) ∧ (s.HINIT = true → s'.HINIT = true)

/-- R21, R24: without a reset the only steps that change `H` are an INIT accepted in IDLE and FOLD, and the only step that changes
`M` is a WRBLK accepted in IDLE. -/
def Obligations.OnlyInitFoldAndWrblkReachHAndM : Prop :=
  ∀ s s' : State, NoReset s → step s = .next s' →
    (s'.H ≠ s.H → (s.phase = Phase.idle ∧ ∃ c rest, s.cmds = c :: rest ∧ c.op = 0x10#8) ∨ s.phase = Phase.fold) ∧
    (s'.M ≠ s.M → s.phase = Phase.idle ∧ ∃ c rest, s.cmds = c :: rest ∧ opMajor c.op = 0x2#4)

/-- R37: the invariants hold in every reset state and every step keeps them. -/
def Obligations.EveryStepKeepsTheLegalStates : Prop :=
  (∀ s : State, IsResetState s → Legal s) ∧
  (∀ s s' : State, Legal s → step s = .next s' → Legal s')

/-- R36, R37: the reset state of the model is one of the spec's reset states (its 112 data words are the model's, log entry 1; this
says nothing of them) and meets the invariants. -/
def Obligations.ResetStateIsLegal : Prop :=
  IsResetState State.reset ∧ Legal State.reset ∧ TracksCompress State.reset

/-- R37, R80, U6: a legal state never stops. In (IDLE, 0) with nothing offered the next state is the model's idle edge (DESIGN CHOICE,
log entry 12: the spec has no step there), and a reset turn's is that of log entries 2 and 14 (DESIGN CHOICE). -/
def Obligations.LegalStatesNeverStop : Prop :=
  ∀ s : State, Legal s → ∃ s', step s = .next s'

/-- R32, R37: the sixteen values STATUS can take in a legal state (the table V9). -/
def Obligations.StatusTakesSixteenValues : Prop :=
  ∀ s : State, Legal s → s.status ∈
    [0x00#64, 0x18#64, 0x28#64, 0x38#64, 0x02#64, 0x1a#64, 0x2a#64, 0x3a#64,
     0x03#64, 0x1b#64, 0x2b#64, 0x3b#64, 0x06#64, 0x1e#64, 0x2e#64, 0x3e#64]

/-! ### The compression -/

/-- R118: the recurrence of `Schedule`, which fixes all eighty words. -/
def Obligations.ScheduleSatisfiesTheRecurrence : Prop :=
  ∀ B : Vector Word 16,
    (∀ t, t ≤ 15 → elem (schedule B) t = elem B t) ∧
    (∀ t, 16 ≤ t → t ≤ 79 → elem (schedule B) t =
      littleSigma1 (elem (schedule B) (t - 2)) + elem (schedule B) (t - 7)
        + littleSigma0 (elem (schedule B) (t - 15)) + elem (schedule B) (t - 16))

/-- R128: `Round`, and ROUND t performs `V <- Round(V, K[t], W[t])`. -/
def Obligations.RoundStepPerformsTheRoundFunction : Prop :=
  (∀ a b c d e f g h k w T1 T2 : Word, T1 = h + bigSigma1 e + ch e f g + k + w → T2 = bigSigma0 a + maj a b c →
    roundFn #v[a, b, c, d, e, f, g, h] k w = #v[T1 + T2, a, b, c, d + T1, e, f, g]) ∧
  (∀ (t : BitVec 7) (s : State), t.toNat ≤ 79 → s.phase = Phase.round → s.t = t →
    ∃ s', exec (.round t) s = .next s' ∧ s'.V = roundFn s.V (elem romK t.toNat) (elem s.W t.toNat))

/-- R119, R131, R132: what the arrays hold during a compression is kept by every step, whatever the order of the agents: polls,
held commands, resets. -/
def Obligations.EveryStepKeepsTheCompressionOnTrack : Prop :=
  ∀ s s' : State, TracksCompress s → step s = .next s' → TracksCompress s'

/-- R130, R131, R132: when the compression is on its track, FOLD leaves `Compress(H, M)`. -/
def Obligations.FoldCompletesCompress : Prop :=
  ∀ s : State, TracksCompress s → s.phase = Phase.fold → s.t = 0#7 →
    ∃ s', exec .fold s = .next s' ∧ s'.H = compress s.H s.M ∧ s'.M = s.M ∧ s'.DVALID = true ∧ s'.phase = Phase.idle

/-- R119: the effect of the SCHED phase as eighty micro-steps in a row. -/
def Obligations.SchedulePhaseFillsTheSchedule : Prop :=
  ∀ (s : State) (ts : List Turn), s.phase = Phase.sched → s.t = 0#7 →
    s.turns = List.replicate 80 .engine ++ ts →
    ∃ s', run 80 s = .next s' ∧ s'.W = schedule s.M ∧ (∀ t, t ≤ 79 → elem s'.W t = elem (schedule s.M) t) ∧
      s'.seq = Phase.loadv ++ 0#7 ∧ s'.H = s.H ∧ s'.V = s.V ∧ s'.M = s.M ∧ s'.HINIT = s.HINIT ∧
      s'.DVALID = s.DVALID ∧ s'.ERR = s.ERR ∧ s'.ECODE = s.ECODE

/-- R132: NEXT accepted in IDLE with HINIT = 1, then the engine's micro-steps: after exactly 162 of them the phase is IDLE again and
`H` = `Compress(H0, M0)`; before that the engine is BUSY, accepts no command but RDSTAT, and RDSTAT reads BUSY = 1, DVALID = 0. -/
def Obligations.NextCompressesInExactly162MicroSteps : Prop :=
  ∀ (s : State) (d : Word) (rest : List Command) (ts : List Turn),
    s.phase = Phase.idle → s.t = 0#7 → s.HINIT = true → s.cmds = ⟨0x30#8, d⟩ :: rest →
    s.turns = .host :: (List.replicate 162 .engine ++ ts) →
    (∃ s', run 163 s = .next s' ∧ s'.H = compress s.H s.M ∧ s'.M = s.M ∧ s'.DVALID = true ∧ s'.HINIT = true ∧
      s'.ERR = s.ERR ∧ s'.ECODE = s.ECODE ∧ s'.W = schedule s.M ∧ s'.V = roundsFn (schedule s.M) s.H 80 ∧
      s'.phase = Phase.idle ∧ s'.t = 0#7 ∧ s'.cmds = rest ∧ s'.turns = ts) ∧
    (∀ k, k < 162 → ∃ u, run (1 + k) s = .next u ∧ u.phase ≠ Phase.idle ∧ u.cmds = rest ∧
      (∀ op, cmdReady false u.phase op = true ↔ op = 0x50#8) ∧
      ∃ v, exec .rdstat u = .next { u with rsp := some v } ∧ v.getLsbD 0 = true ∧ v.getLsbD 2 = false)

/-- R27, R211: from every legal BUSY state, whatever the host offers (polls included) and whatever order of host and engine is given,
without a reset the phase is IDLE after exactly the micro-steps that SEQ leaves and `p` accepted polls, which are the first `p`
offers; what was held is still offered, and nothing but polls was accepted. The bound on the number of steps rests on the order the
model takes where none is given (DESIGN CHOICE, log entry 3). -/
def Obligations.BusyEngineBecomesIdle : Prop :=
  ∀ s : State, Legal s → s.phase ≠ Phase.idle → (∀ n, Turn.reset n ∉ s.turns) →
    0 < microStepsLeft s ∧ microStepsLeft s ≤ 162 ∧
    ∃ p s', p ≤ s.cmds.length ∧ microStepsLeft s + p ≤ s.turns.length + 2 * microStepsLeft s ∧
      (∀ c ∈ s.cmds.take p, c.op = 0x50#8) ∧ (HostWaits s → p = 0) ∧
      run (microStepsLeft s + p) s = .next s' ∧ s'.phase = Phase.idle ∧ s'.t = 0#7 ∧ s'.DVALID = true ∧
      s'.cmds = s.cmds.drop p

/-- R27, R211: a step from a legal BUSY state, unless it is a reset, either accepts a poll, which responds STATUS and leaves the
sequencer where it is, or is a micro-step, one fewer being left then. -/
def Obligations.BusyStepPollsOrAdvances : Prop :=
  ∀ s : State, Legal s → s.phase ≠ Phase.idle → NoReset s →
    ∃ s', step s = .next s' ∧ s'.turns = s.turns.tail ∧
      ((takesMicroStep s = false ∧ (∃ c, c.op = 0x50#8 ∧ s.cmds = c :: s'.cmds) ∧ s'.rsp = some s.status ∧ s'.seq = s.seq ∧
          microStepsLeft s' = microStepsLeft s) ∨
       (takesMicroStep s = true ∧ s'.cmds = s.cmds ∧ s'.rsp = none ∧ microStepsLeft s' + 1 = microStepsLeft s))

/-- R211: in every run without end that is weakly fair to the sequencer, whatever the host goes on to offer, a BUSY engine is IDLE
after finitely many steps with exactly the micro-steps SEQ leaves among them, unless it is reset; and a held command is accepted at
the step after that. -/
def Obligations.FairRunsReachIdleAndAcceptTheHeldCommand : Prop :=
  ∀ (inputs : Nat → List Command × List Turn) (states : Nat → State), OpenRun inputs states → Legal (states 0) →
    WeaklyFair inputs states → ∀ n, (states n).phase ≠ Phase.idle →
    (∀ m, n ≤ m → takesReset ((states m).feed (inputs m)) = false) →
    ∃ m, n ≤ m ∧ (states m).phase = Phase.idle ∧ (∀ k, n ≤ k → k < m → (states k).phase ≠ Phase.idle) ∧
      ((List.range (m - n)).filter fun k => takesMicroStep ((states (n + k)).feed (inputs (n + k)))).length =
        microStepsLeft (states n) ∧
      ∀ c rest, (states n).cmds = c :: rest → c.op ≠ 0x50#8 →
        ∃ more, (states m).cmds = c :: (rest ++ more) ∧ (states (m + 1)).cmds = rest ++ more ++ (inputs m).1

/-- R211: a run in which from some point on the environment gives no turns is weakly fair, though the host polls at every edge: the
model's own order never lets the host block the sequencer (DESIGN CHOICE, log entry 3). -/
def Obligations.DefaultOrderIsWeaklyFair : Prop :=
  ∀ (inputs : Nat → List Command × List Turn) (states : Nat → State), OpenRun inputs states →
    (∃ n, ∀ m, n ≤ m → (inputs m).2 = []) → WeaklyFair inputs states

/-- R83: `WAIT` ends, from every legal state and under every list of turns, at the first response with bit 0 = 0: every earlier one has
bit 0 = 1, the phase is then IDLE, and the expansion is as many RDSTATs as there were responses. The bound on the steps rests on log
entries 3, 12 and 21 (DESIGN CHOICE). -/
def Obligations.WaitPollsUntilBusyIsZero : Prop :=
  ∀ s : State, Legal s → s.cmds = [] →
    ∃ vs v s', waitRun (s.turns.length + 325) s = some (vs ++ [v], s') ∧ (∀ x ∈ vs, x.getLsbD 0 = true) ∧
      v.getLsbD 0 = false ∧ v = s'.status ∧ s'.phase = Phase.idle ∧ s'.cmds = [] ∧
      waitExpansion (s.turns.length + 325) s = some (waitCommands (vs.length + 1))

/-- R83: where no turn is given, WAIT takes one poll more than SEQ leaves micro-steps, and offering its expansion at once as a plain
list of commands gives the same responses and the same state (the count rests on the model's order: DESIGN CHOICE, log entry 3). -/
def Obligations.WaitIsItsExpansion : Prop :=
  ∀ s : State, Legal s → s.cmds = [] → s.turns = [] → s.rsp = none →
    ∃ vs s', waitRun (2 * microStepsLeft s + 1) s = some (vs, s') ∧ vs.length = microStepsLeft s + 1 ∧
      run (2 * microStepsLeft s + 1) { s with cmds := waitCommands (microStepsLeft s + 1) } = .next s' ∧
      responses (2 * microStepsLeft s + 1) { s with cmds := waitCommands (microStepsLeft s + 1) } = vs

/-- R149, R150: INIT, the blocks in order each as sixteen WRBLK and NEXT, then RDDIG 0 to 7: the eight responses are the words of
`Chain`, ERR stays 0, STATUS reads 6; R22: reading did not change `H`. The order of the sixteen WRBLK is the one of R83. -/
def Obligations.DrivingTheEngineComputesChain : Prop :=
  ∀ (s : State) (blocks : List (Vector Word 16)), blocks ≠ [] → s.phase = Phase.idle → s.t = 0#7 → s.ERR = false →
    s.ECODE = 0#4 → s.turns = [] → s.cmds = chainCommands blocks ++ digestCommands →
    ∃ s', run (9 + 179 * blocks.length) s = .next s' ∧ s'.H = chain blocks ∧ RunEnded s' ∧ s'.ERR = false ∧
      s'.status = 0x0000000000000006#64 ∧
      responses (9 + 179 * blocks.length) s = (List.range 8).map fun i => elem (chain blocks) i

/-- R35, U1, D12: two engines that differ only in words no rule may read any more (`W` and `V` not yet rewritten in this
compression, `H` before INIT) take the same steps and drive the same responses. For a reset turn this rests on both drawing the same
free words from equal draws, where the spec leaves them open, and for an idle edge on the model's form of it (DESIGN CHOICE, log
entries 2 and 12). -/
def Obligations.HiddenWordsNeverShow : Prop :=
  ∀ a b : State, Legal a → SameView a b →
    ∃ a' b', step a = .next a' ∧ step b = .next b' ∧ SameView a' b'

/-! ### Words and constants -/

/-- R92, R93: rotation and shift bit by bit. -/
def Obligations.RotationAndShiftBitByBit : Prop :=
  ∀ (x : Word) (n : Nat), 0 < n → n < 64 → ∀ i, i < 64 →
    (rotr x n).getLsbD i = x.getLsbD ((i + n) % 64) ∧
    (shr x n).getLsbD i = if i ≤ 63 - n then x.getLsbD (i + n) else false

/-- R94, R95: the formulas, and bit by bit: Ch is y where x is 1 and z where x is 0; Maj is the majority. -/
def Obligations.ChooseAndMajorityBitByBit : Prop :=
  ∀ (x y z : Word),
    ch x y z = (x &&& y) ^^^ (~~~x &&& z) ∧
    maj x y z = (x &&& y) ^^^ (x &&& z) ^^^ (y &&& z) ∧
    ∀ i, i < 64 →
      (ch x y z).getLsbD i = (if x.getLsbD i then y.getLsbD i else z.getLsbD i) ∧
      ((maj x y z).getLsbD i = true ↔
        2 ≤ (x.getLsbD i).toNat + (y.getLsbD i).toNat + (z.getLsbD i).toNat)

/-- R96 to R99: each sigma bit by bit, with the amounts of its rule; the third term of the little ones is a shift. -/
def Obligations.SigmasBitByBit : Prop :=
  ∀ (x : Word) (i : Nat), i < 64 →
    (bigSigma0 x).getLsbD i =
      ((x.getLsbD ((i + 28) % 64) ^^ x.getLsbD ((i + 34) % 64)) ^^ x.getLsbD ((i + 39) % 64)) ∧
    (bigSigma1 x).getLsbD i =
      ((x.getLsbD ((i + 14) % 64) ^^ x.getLsbD ((i + 18) % 64)) ^^ x.getLsbD ((i + 41) % 64)) ∧
    (littleSigma0 x).getLsbD i =
      ((x.getLsbD ((i + 1) % 64) ^^ x.getLsbD ((i + 8) % 64)) ^^ (decide (i ≤ 56) && x.getLsbD (i + 7))) ∧
    (littleSigma1 x).getLsbD i =
      ((x.getLsbD ((i + 19) % 64) ^^ x.getLsbD ((i + 61) % 64)) ^^ (decide (i ≤ 57) && x.getLsbD (i + 6)))

/-- R113: `K[t]` is floor(cbrt(p) * 2^64) mod 2^64 for the (t+1)-th prime p, `IV[i]` is floor(sqrt(p) * 2^64) mod 2^64 for the
(i+1)-th: `q` is the floor, by its defining inequalities. -/
def Obligations.RomWordsAreRootFractions : Prop :=
  (∀ t, t < 80 → ∃ p q : Nat, p.Prime ∧ Nat.count Nat.Prime p = t ∧
    q ^ 3 ≤ p * 2 ^ 192 ∧ p * 2 ^ 192 < (q + 1) ^ 3 ∧ (elem romK t).toNat = q % 2 ^ 64) ∧
  (∀ i, i < 8 → ∃ p q : Nat, p.Prime ∧ Nat.count Nat.Prime p = i ∧
    q ^ 2 ≤ p * 2 ^ 128 ∧ p * 2 ^ 128 < (q + 1) ^ 2 ∧ (elem romIV i).toNat = q % 2 ^ 64)

/-! ### The host's functions -/

/-- R162 with C1: the number of blocks, and the threshold at 112 bytes. -/
def Obligations.BlockCountThreshold : Prop :=
  ∀ L : Nat,
    (128 * (blockCount L - 1) < L + 17 ∧ L + 17 ≤ 128 * blockCount L) ∧
    (L % 128 ≤ 111 → blockCount L = L / 128 + 1) ∧ (112 ≤ L % 128 → blockCount L = L / 128 + 2)

/-- R162 to R165 with C2: the padded stream is the message, the byte 0x80, zeros, and the bit length in its last eight bytes; word
`i` of block `j` is the R164 sum over the stream; only the last block carries the length (every byte before it is of the message,
0x80 or 0), word 14 of it being 0 and word 15 the bit length. -/
def Obligations.PaddedMessageHasItsShape : Prop :=
  ∀ (msg : List Byte) (blocks : List (Vector Word 16)), pad msg = .ok blocks →
    blocks.length = blockCount msg.length ∧ (paddedBytes msg).length = 128 * blockCount msg.length ∧
    (paddedBytes msg).take (msg.length + 1) = msg ++ [0x80#8] ∧
    (∀ m, msg.length < m → m < 128 * blockCount msg.length - 8 → (paddedBytes msg)[m]? = some 0#8) ∧
    (∀ k, k < 8 → (paddedBytes msg)[128 * blockCount msg.length - 8 + k]? =
      some (BitVec.ofNat 8 (8 * msg.length / 2 ^ (8 * (7 - k))))) ∧
    (∀ m, m < 128 * (blockCount msg.length - 1) →
      (paddedBytes msg)[m]? = if m < msg.length then msg[m]? else if m = msg.length then some 0x80#8 else some 0#8) ∧
    (∀ j B, blocks[j]? = some B → ∀ i, i < 16 → (elem B i).toNat =
      ((List.range 8).map fun k => ((paddedBytes msg).getD (128 * j + 8 * i + k) 0#8).toNat * 2 ^ (8 * (7 - k))).sum) ∧
    ∃ last, blocks.getLast? = some last ∧ elem last 14 = 0#64 ∧ (elem last 15).toNat = 8 * msg.length

/-- R166, R167: the host refuses exactly the messages of 2^64 bits or more, and then issues no command. -/
def Obligations.InputTooLargeIsTheHosts : Prop :=
  ∀ msg : List Byte,
    (pad msg = .error .inputTooLarge ↔ 2 ^ 61 ≤ msg.length) ∧
    (2 ^ 61 ≤ msg.length → sha512 msg = .error .inputTooLarge ∧ hashCommands msg = .error .inputTooLarge) ∧
    (msg.length < 2 ^ 61 → ∃ blocks, pad msg = .ok blocks ∧ sha512 msg = .ok (chain blocks) ∧
      hashCommands msg = .ok (chainCommands blocks ++ digestCommands))

/-- R54, R55, R164, R168: packing bytes into words and words into bytes agree: big-endian both ways, 64 bytes. -/
def Obligations.DigestBytesPackBackToTheWords : Prop :=
  ∀ h : Vector Word 8, (digestBytes h).length = 64 ∧ ∀ i, i < 8 → packWord (digestBytes h) (8 * i) = elem h i

/-- R169: the digest as text has 128 characters; character `16i + k` is the lower-case digit of bits [63-4k : 60-4k] of word `i`, so
the most significant digit comes first and leading zeros stay; read back, the 16 digits of word `i` give the word. -/
def Obligations.HexStringHas128Digits : Prop :=
  ∀ h : Vector Word 8, (hexString h).length = 128 ∧
    (∀ c ∈ (hexString h).toList, c ∈ "0123456789abcdef".toList) ∧
    (∀ i k, i < 8 → k < 16 → (hexString h).toList[16 * i + k]? =
      "0123456789abcdef".toList[((elem h i).extractLsb' (60 - 4 * k) 4).toNat]?) ∧
    (∀ i, i < 8 → (((hexString h).toList.drop (16 * i)).take 16).foldl
      (fun n c => 16 * n + "0123456789abcdef".toList.idxOf c) 0 = (elem h i).toNat) ∧
    ∀ i, i < 8 → ((hexString h).toList.drop (16 * i)).take 16 = hexWord (elem h i)
end

