-- ==== Sys2Proof/Laws/Operands.lean ====
section
/-! SUPPORT. Reading and writing one element of a register array: a read after a write to the same index gives the word
written, a write leaves every other element alone, and two arrays with the same elements are equal. -/

namespace Sys2Proof.Machine

variable {n : Nat}

theorem elem_of_lt (A : Vector Word n) {i : Nat} (h : i < n) : elem A i = A[i] := by
  simp [elem, Vector.getD, h]

theorem elem_of_ge (A : Vector Word n) {i : Nat} (h : n ≤ i) : elem A i = 0#64 := by
  simp [elem, Vector.getD, h]

theorem elem_setElem (A : Vector Word n) (i j : Nat) (v : Word) :
    elem (setElem A i v) j = if i = j ∧ i < n then v else elem A j := by
  by_cases hj : j < n
  · rw [elem_of_lt _ hj, elem_of_lt _ hj, setElem, Vector.getElem_setIfInBounds hj]
    by_cases hij : i = j
    · simp [hij, hj]
    · simp [hij]
  · have hj' : n ≤ j := Nat.le_of_not_lt hj
    rw [elem_of_ge _ hj', elem_of_ge _ hj', if_neg]
    omega

/-- A read after a write to the same element gives the word written. -/
theorem elem_setElem_self (A : Vector Word n) {i : Nat} (h : i < n) (v : Word) : elem (setElem A i v) i = v := by
  simp [elem_setElem, h]

/-- A write leaves every other element alone. -/
theorem elem_setElem_of_ne (A : Vector Word n) {i j : Nat} (h : i ≠ j) (v : Word) :
    elem (setElem A i v) j = elem A j := by
  simp [elem_setElem, h]

/-- Arrays are equal when their elements are. -/
theorem ext_elem {A B : Vector Word n} (h : ∀ i, i < n → elem A i = elem B i) : A = B := by
  apply Vector.ext
  intro i hi
  have := h i hi
  rwa [elem_of_lt _ hi, elem_of_lt _ hi] at this

theorem elem_ofFn (f : Fin n → Word) {i : Nat} (h : i < n) : elem (Vector.ofFn f) i = f ⟨i, h⟩ := by
  rw [elem_of_lt _ h, Vector.getElem_ofFn]

/-- Writing what is written already changes nothing more: writes are idempotent (spec/20_memory.md R59). -/
theorem setElem_setElem (A : Vector Word n) (i : Nat) (v : Word) : setElem (setElem A i v) i v = setElem A i v := by
  apply ext_elem
  intro j _
  simp only [elem_setElem]
  split <;> rfl

end Sys2Proof.Machine
end

