-- ==== Sys2Proof/Laws/State.lean ====
section
/-! SUPPORT. One lemma for each field and each update of State (Machine/Ops.lean), so that no later proof unfolds a record
update; and the fields of the state after a reset event. -/

namespace Sys2Proof.Machine

/-! The five phase codes are distinct (spec/10_state.md R26). -/

@[simp] theorem Phase.idle_toNat : BitVec.toNat Phase.idle = 0 := rfl
@[simp] theorem Phase.idle_ne_sched : Phase.idle ≠ Phase.sched := by decide
@[simp] theorem Phase.idle_ne_loadv : Phase.idle ≠ Phase.loadv := by decide
@[simp] theorem Phase.idle_ne_round : Phase.idle ≠ Phase.round := by decide
@[simp] theorem Phase.idle_ne_fold : Phase.idle ≠ Phase.fold := by decide
@[simp] theorem Phase.sched_toNat : BitVec.toNat Phase.sched = 1 := rfl
@[simp] theorem Phase.sched_ne_idle : Phase.sched ≠ Phase.idle := by decide
@[simp] theorem Phase.sched_ne_loadv : Phase.sched ≠ Phase.loadv := by decide
@[simp] theorem Phase.sched_ne_round : Phase.sched ≠ Phase.round := by decide
@[simp] theorem Phase.sched_ne_fold : Phase.sched ≠ Phase.fold := by decide
@[simp] theorem Phase.loadv_toNat : BitVec.toNat Phase.loadv = 2 := rfl
@[simp] theorem Phase.loadv_ne_idle : Phase.loadv ≠ Phase.idle := by decide
@[simp] theorem Phase.loadv_ne_sched : Phase.loadv ≠ Phase.sched := by decide
@[simp] theorem Phase.loadv_ne_round : Phase.loadv ≠ Phase.round := by decide
@[simp] theorem Phase.loadv_ne_fold : Phase.loadv ≠ Phase.fold := by decide
@[simp] theorem Phase.round_toNat : BitVec.toNat Phase.round = 3 := rfl
@[simp] theorem Phase.round_ne_idle : Phase.round ≠ Phase.idle := by decide
@[simp] theorem Phase.round_ne_sched : Phase.round ≠ Phase.sched := by decide
@[simp] theorem Phase.round_ne_loadv : Phase.round ≠ Phase.loadv := by decide
@[simp] theorem Phase.round_ne_fold : Phase.round ≠ Phase.fold := by decide
@[simp] theorem Phase.fold_toNat : BitVec.toNat Phase.fold = 4 := rfl
@[simp] theorem Phase.fold_ne_idle : Phase.fold ≠ Phase.idle := by decide
@[simp] theorem Phase.fold_ne_sched : Phase.fold ≠ Phase.sched := by decide
@[simp] theorem Phase.fold_ne_loadv : Phase.fold ≠ Phase.loadv := by decide
@[simp] theorem Phase.fold_ne_round : Phase.fold ≠ Phase.round := by decide

variable (s : State)

section
variable (p : Phase) (n : BitVec 7)
@[simp] theorem State.setSeq_H : (s.setSeq p n).H = s.H := rfl
@[simp] theorem State.setSeq_V : (s.setSeq p n).V = s.V := rfl
@[simp] theorem State.setSeq_M : (s.setSeq p n).M = s.M := rfl
@[simp] theorem State.setSeq_W : (s.setSeq p n).W = s.W := rfl
@[simp] theorem State.setSeq_phase : (s.setSeq p n).phase = p := rfl
@[simp] theorem State.setSeq_t : (s.setSeq p n).t = n := rfl
@[simp] theorem State.setSeq_HINIT : (s.setSeq p n).HINIT = s.HINIT := rfl
@[simp] theorem State.setSeq_DVALID : (s.setSeq p n).DVALID = s.DVALID := rfl
@[simp] theorem State.setSeq_ERR : (s.setSeq p n).ERR = s.ERR := rfl
@[simp] theorem State.setSeq_ECODE : (s.setSeq p n).ECODE = s.ECODE := rfl
@[simp] theorem State.setSeq_cmds : (s.setSeq p n).cmds = s.cmds := rfl
@[simp] theorem State.setSeq_rsp : (s.setSeq p n).rsp = s.rsp := rfl
@[simp] theorem State.setSeq_turns : (s.setSeq p n).turns = s.turns := rfl
@[simp] theorem State.setSeq_draws : (s.setSeq p n).draws = s.draws := rfl
end

section
variable (r : Option Word)
@[simp] theorem State.respond_H : (s.respond r).H = s.H := rfl
@[simp] theorem State.respond_V : (s.respond r).V = s.V := rfl
@[simp] theorem State.respond_M : (s.respond r).M = s.M := rfl
@[simp] theorem State.respond_W : (s.respond r).W = s.W := rfl
@[simp] theorem State.respond_phase : (s.respond r).phase = s.phase := rfl
@[simp] theorem State.respond_t : (s.respond r).t = s.t := rfl
@[simp] theorem State.respond_HINIT : (s.respond r).HINIT = s.HINIT := rfl
@[simp] theorem State.respond_DVALID : (s.respond r).DVALID = s.DVALID := rfl
@[simp] theorem State.respond_ERR : (s.respond r).ERR = s.ERR := rfl
@[simp] theorem State.respond_ECODE : (s.respond r).ECODE = s.ECODE := rfl
@[simp] theorem State.respond_cmds : (s.respond r).cmds = s.cmds := rfl
@[simp] theorem State.respond_rsp : (s.respond r).rsp = r := rfl
@[simp] theorem State.respond_turns : (s.respond r).turns = s.turns := rfl
@[simp] theorem State.respond_draws : (s.respond r).draws = s.draws := rfl
end

section
variable (h : Vector Word 8)
@[simp] theorem State.writeH_H : (s.writeH h).H = h := rfl
@[simp] theorem State.writeH_V : (s.writeH h).V = s.V := rfl
@[simp] theorem State.writeH_M : (s.writeH h).M = s.M := rfl
@[simp] theorem State.writeH_W : (s.writeH h).W = s.W := rfl
@[simp] theorem State.writeH_phase : (s.writeH h).phase = s.phase := rfl
@[simp] theorem State.writeH_t : (s.writeH h).t = s.t := rfl
@[simp] theorem State.writeH_HINIT : (s.writeH h).HINIT = s.HINIT := rfl
@[simp] theorem State.writeH_DVALID : (s.writeH h).DVALID = s.DVALID := rfl
@[simp] theorem State.writeH_ERR : (s.writeH h).ERR = s.ERR := rfl
@[simp] theorem State.writeH_ECODE : (s.writeH h).ECODE = s.ECODE := rfl
@[simp] theorem State.writeH_cmds : (s.writeH h).cmds = s.cmds := rfl
@[simp] theorem State.writeH_rsp : (s.writeH h).rsp = s.rsp := rfl
@[simp] theorem State.writeH_turns : (s.writeH h).turns = s.turns := rfl
@[simp] theorem State.writeH_draws : (s.writeH h).draws = s.draws := rfl
end

section
variable (v : Vector Word 8)
@[simp] theorem State.writeV_H : (s.writeV v).H = s.H := rfl
@[simp] theorem State.writeV_V : (s.writeV v).V = v := rfl
@[simp] theorem State.writeV_M : (s.writeV v).M = s.M := rfl
@[simp] theorem State.writeV_W : (s.writeV v).W = s.W := rfl
@[simp] theorem State.writeV_phase : (s.writeV v).phase = s.phase := rfl
@[simp] theorem State.writeV_t : (s.writeV v).t = s.t := rfl
@[simp] theorem State.writeV_HINIT : (s.writeV v).HINIT = s.HINIT := rfl
@[simp] theorem State.writeV_DVALID : (s.writeV v).DVALID = s.DVALID := rfl
@[simp] theorem State.writeV_ERR : (s.writeV v).ERR = s.ERR := rfl
@[simp] theorem State.writeV_ECODE : (s.writeV v).ECODE = s.ECODE := rfl
@[simp] theorem State.writeV_cmds : (s.writeV v).cmds = s.cmds := rfl
@[simp] theorem State.writeV_rsp : (s.writeV v).rsp = s.rsp := rfl
@[simp] theorem State.writeV_turns : (s.writeV v).turns = s.turns := rfl
@[simp] theorem State.writeV_draws : (s.writeV v).draws = s.draws := rfl
end

section
variable (i : Nat) (v : Word)
@[simp] theorem State.writeM_H : (s.writeM i v).H = s.H := rfl
@[simp] theorem State.writeM_V : (s.writeM i v).V = s.V := rfl
@[simp] theorem State.writeM_M : (s.writeM i v).M = setElem s.M i v := rfl
@[simp] theorem State.writeM_W : (s.writeM i v).W = s.W := rfl
@[simp] theorem State.writeM_phase : (s.writeM i v).phase = s.phase := rfl
@[simp] theorem State.writeM_t : (s.writeM i v).t = s.t := rfl
@[simp] theorem State.writeM_HINIT : (s.writeM i v).HINIT = s.HINIT := rfl
@[simp] theorem State.writeM_DVALID : (s.writeM i v).DVALID = s.DVALID := rfl
@[simp] theorem State.writeM_ERR : (s.writeM i v).ERR = s.ERR := rfl
@[simp] theorem State.writeM_ECODE : (s.writeM i v).ECODE = s.ECODE := rfl
@[simp] theorem State.writeM_cmds : (s.writeM i v).cmds = s.cmds := rfl
@[simp] theorem State.writeM_rsp : (s.writeM i v).rsp = s.rsp := rfl
@[simp] theorem State.writeM_turns : (s.writeM i v).turns = s.turns := rfl
@[simp] theorem State.writeM_draws : (s.writeM i v).draws = s.draws := rfl
end

section
variable (i : Nat) (v : Word)
@[simp] theorem State.writeW_H : (s.writeW i v).H = s.H := rfl
@[simp] theorem State.writeW_V : (s.writeW i v).V = s.V := rfl
@[simp] theorem State.writeW_M : (s.writeW i v).M = s.M := rfl
@[simp] theorem State.writeW_W : (s.writeW i v).W = setElem s.W i v := rfl
@[simp] theorem State.writeW_phase : (s.writeW i v).phase = s.phase := rfl
@[simp] theorem State.writeW_t : (s.writeW i v).t = s.t := rfl
@[simp] theorem State.writeW_HINIT : (s.writeW i v).HINIT = s.HINIT := rfl
@[simp] theorem State.writeW_DVALID : (s.writeW i v).DVALID = s.DVALID := rfl
@[simp] theorem State.writeW_ERR : (s.writeW i v).ERR = s.ERR := rfl
@[simp] theorem State.writeW_ECODE : (s.writeW i v).ECODE = s.ECODE := rfl
@[simp] theorem State.writeW_cmds : (s.writeW i v).cmds = s.cmds := rfl
@[simp] theorem State.writeW_rsp : (s.writeW i v).rsp = s.rsp := rfl
@[simp] theorem State.writeW_turns : (s.writeW i v).turns = s.turns := rfl
@[simp] theorem State.writeW_draws : (s.writeW i v).draws = s.draws := rfl
end

section
variable (b : Bool)
@[simp] theorem State.setHINIT_H : (s.setHINIT b).H = s.H := rfl
@[simp] theorem State.setHINIT_V : (s.setHINIT b).V = s.V := rfl
@[simp] theorem State.setHINIT_M : (s.setHINIT b).M = s.M := rfl
@[simp] theorem State.setHINIT_W : (s.setHINIT b).W = s.W := rfl
@[simp] theorem State.setHINIT_phase : (s.setHINIT b).phase = s.phase := rfl
@[simp] theorem State.setHINIT_t : (s.setHINIT b).t = s.t := rfl
@[simp] theorem State.setHINIT_HINIT : (s.setHINIT b).HINIT = b := rfl
@[simp] theorem State.setHINIT_DVALID : (s.setHINIT b).DVALID = s.DVALID := rfl
@[simp] theorem State.setHINIT_ERR : (s.setHINIT b).ERR = s.ERR := rfl
@[simp] theorem State.setHINIT_ECODE : (s.setHINIT b).ECODE = s.ECODE := rfl
@[simp] theorem State.setHINIT_cmds : (s.setHINIT b).cmds = s.cmds := rfl
@[simp] theorem State.setHINIT_rsp : (s.setHINIT b).rsp = s.rsp := rfl
@[simp] theorem State.setHINIT_turns : (s.setHINIT b).turns = s.turns := rfl
@[simp] theorem State.setHINIT_draws : (s.setHINIT b).draws = s.draws := rfl
end

section
variable (b : Bool)
@[simp] theorem State.setDVALID_H : (s.setDVALID b).H = s.H := rfl
@[simp] theorem State.setDVALID_V : (s.setDVALID b).V = s.V := rfl
@[simp] theorem State.setDVALID_M : (s.setDVALID b).M = s.M := rfl
@[simp] theorem State.setDVALID_W : (s.setDVALID b).W = s.W := rfl
@[simp] theorem State.setDVALID_phase : (s.setDVALID b).phase = s.phase := rfl
@[simp] theorem State.setDVALID_t : (s.setDVALID b).t = s.t := rfl
@[simp] theorem State.setDVALID_HINIT : (s.setDVALID b).HINIT = s.HINIT := rfl
@[simp] theorem State.setDVALID_DVALID : (s.setDVALID b).DVALID = b := rfl
@[simp] theorem State.setDVALID_ERR : (s.setDVALID b).ERR = s.ERR := rfl
@[simp] theorem State.setDVALID_ECODE : (s.setDVALID b).ECODE = s.ECODE := rfl
@[simp] theorem State.setDVALID_cmds : (s.setDVALID b).cmds = s.cmds := rfl
@[simp] theorem State.setDVALID_rsp : (s.setDVALID b).rsp = s.rsp := rfl
@[simp] theorem State.setDVALID_turns : (s.setDVALID b).turns = s.turns := rfl
@[simp] theorem State.setDVALID_draws : (s.setDVALID b).draws = s.draws := rfl
end

section
variable (c : Cause)
@[simp] theorem State.raiseProtocolError_H : (s.raiseProtocolError c).H = s.H := rfl
@[simp] theorem State.raiseProtocolError_V : (s.raiseProtocolError c).V = s.V := rfl
@[simp] theorem State.raiseProtocolError_M : (s.raiseProtocolError c).M = s.M := rfl
@[simp] theorem State.raiseProtocolError_W : (s.raiseProtocolError c).W = s.W := rfl
@[simp] theorem State.raiseProtocolError_phase : (s.raiseProtocolError c).phase = s.phase := rfl
@[simp] theorem State.raiseProtocolError_t : (s.raiseProtocolError c).t = s.t := rfl
@[simp] theorem State.raiseProtocolError_HINIT : (s.raiseProtocolError c).HINIT = s.HINIT := rfl
@[simp] theorem State.raiseProtocolError_DVALID : (s.raiseProtocolError c).DVALID = s.DVALID := rfl
@[simp] theorem State.raiseProtocolError_ERR : (s.raiseProtocolError c).ERR = true := rfl
@[simp] theorem State.raiseProtocolError_ECODE : (s.raiseProtocolError c).ECODE = if s.ERR then s.ECODE else causeCode c := rfl
@[simp] theorem State.raiseProtocolError_cmds : (s.raiseProtocolError c).cmds = s.cmds := rfl
@[simp] theorem State.raiseProtocolError_rsp : (s.raiseProtocolError c).rsp = s.rsp := rfl
@[simp] theorem State.raiseProtocolError_turns : (s.raiseProtocolError c).turns = s.turns := rfl
@[simp] theorem State.raiseProtocolError_draws : (s.raiseProtocolError c).draws = s.draws := rfl
end

section
variable (k : Nat)
@[simp] theorem resetEvent_H : (resetEvent s k).H = freeWords s.draws 8 := rfl
@[simp] theorem resetEvent_V : (resetEvent s k).V = freeWords (s.draws + 8) 8 := rfl
@[simp] theorem resetEvent_M : (resetEvent s k).M = freeWords (s.draws + 16) 16 := rfl
@[simp] theorem resetEvent_W : (resetEvent s k).W = freeWords (s.draws + 32) 80 := rfl
@[simp] theorem resetEvent_phase : (resetEvent s k).phase = Phase.idle := rfl
@[simp] theorem resetEvent_t : (resetEvent s k).t = 0#7 := rfl
@[simp] theorem resetEvent_HINIT : (resetEvent s k).HINIT = false := rfl
@[simp] theorem resetEvent_DVALID : (resetEvent s k).DVALID = false := rfl
@[simp] theorem resetEvent_ERR : (resetEvent s k).ERR = false := rfl
@[simp] theorem resetEvent_ECODE : (resetEvent s k).ECODE = 0#4 := rfl
@[simp] theorem resetEvent_cmds : (resetEvent s k).cmds = s.cmds.drop k := rfl
@[simp] theorem resetEvent_rsp : (resetEvent s k).rsp = none := rfl
@[simp] theorem resetEvent_turns : (resetEvent s k).turns = s.turns := rfl
@[simp] theorem resetEvent_draws : (resetEvent s k).draws = s.draws + 112 := rfl
end

/-- An edge at which nothing happens only clears the response channel. -/
@[simp] theorem idleEdge_eq : idleEdge s = s.respond none := rfl

end Sys2Proof.Machine
end

