-- ==== Sys2Proof/Laws/Ops.lean ====
section
/-! SUPPORT. What each shared operation of Machine/Ops.lean can do, said once: acceptance, selection, the protocol error, the
illegal command. -/

namespace Sys2Proof.Machine

theorem whenIdle_of_idle {s : State} (h : s.phase = Phase.idle) (effect : State → State) :
    whenIdle s effect = .next (effect s) := by
  simp [whenIdle, h]

theorem whenIdle_of_busy {s : State} (h : s.phase ≠ Phase.idle) (effect : State → State) :
    whenIdle s effect = .next (s.respond none) := by
  simp [whenIdle, h]

/-- A command accepted only in IDLE either takes its effect there or is held. -/
theorem whenIdle_cases {s s' : State} {effect : State → State} (h : whenIdle s effect = .next s') :
    (s.phase = Phase.idle ∧ s' = effect s) ∨ (s.phase ≠ Phase.idle ∧ s' = s.respond none) := by
  by_cases hp : s.phase = Phase.idle
  · rw [whenIdle_of_idle hp] at h
    exact .inl ⟨hp, (Host.Outcome.next.inj h).symm⟩
  · rw [whenIdle_of_busy hp] at h
    exact .inr ⟨hp, (Host.Outcome.next.inj h).symm⟩

theorem whenSelected_of {s : State} {p : Phase} {n : BitVec 7} {r : Bool} (hp : s.phase = p) (hn : s.t = n)
    (hr : r = true) (effect : State → State) : whenSelected s p n r effect = .next (effect s) := by
  simp [whenSelected, hp, hn, hr]

/-- A micro-step that answers a next state was selected and takes its effect. -/
theorem whenSelected_cases {s s' : State} {p : Phase} {n : BitVec 7} {r : Bool} {effect : State → State}
    (h : whenSelected s p n r effect = .next s') :
    s.phase = p ∧ s.t = n ∧ r = true ∧ s' = effect s := by
  unfold whenSelected at h
  split at h
  · rename_i hc
    exact ⟨hc.1, hc.2.1, hc.2.2, (Host.Outcome.next.inj h).symm⟩
  · cases h

/-- An accepted illegal command only records its protocol error; a held one does nothing. -/
theorem illegalCommand_cases {s s' : State} (h : illegalCommand s = .next s') :
    (s.phase = Phase.idle ∧ s' = (s.raiseProtocolError .illegalCommand).respond none) ∨
    (s.phase ≠ Phase.idle ∧ s' = s.respond none) :=
  whenIdle_cases h

/-- ECODE keeps the first cause. -/
theorem raiseProtocolError_keeps_first {s : State} (c : Cause) (h : s.ERR = true) :
    (s.raiseProtocolError c).ECODE = s.ECODE := by
  simp [h]

theorem raiseProtocolError_records_first {s : State} (c : Cause) (h : s.ERR = false) :
    (s.raiseProtocolError c).ECODE = causeCode c := by
  simp [h]

theorem causeCode_ne_zero (c : Cause) : causeCode c ≠ 0#4 := by cases c <;> decide

theorem causeCode_le_three (c : Cause) : (causeCode c).toNat ≤ 3 := by cases c <;> decide

end Sys2Proof.Machine
end

