-- ==== Sys2Proof/Laws/Exec.lean ====
section
/-! SUPPORT. One inversion lemma for each instruction: everything it can be when it answers a next state, so that no later
proof unfolds a meaning. -/

namespace Sys2Proof.Machine

variable {s s' : State}

theorem exec_init_cases (h : exec .init s = .next s') :
    (s.phase = Phase.idle ∧ s' = (((s.writeH romIV).setHINIT true).setDVALID false).respond none) ∨
    (s.phase ≠ Phase.idle ∧ s' = s.respond none) :=
  whenIdle_cases (effect := fun s => (((s.writeH romIV).setHINIT true).setDVALID false).respond none) h

theorem exec_wrblk_cases {i : BitVec 4} {v : Word} (h : exec (.wrblk i v) s = .next s') :
    (s.phase = Phase.idle ∧ s' = (s.writeM i.toNat v).respond none) ∨
    (s.phase ≠ Phase.idle ∧ s' = s.respond none) :=
  whenIdle_cases (effect := fun s => (s.writeM (blockIndex i) v).respond none) h

theorem exec_next_cases (h : exec .next s = .next s') :
    (s.phase = Phase.idle ∧ s.HINIT = true ∧ s' = ((s.setDVALID false).setSeq Phase.sched 0#7).respond none) ∨
    (s.phase = Phase.idle ∧ s.HINIT = false ∧ s' = (s.raiseProtocolError .nextBeforeInit).respond none) ∨
    (s.phase ≠ Phase.idle ∧ s' = s.respond none) := by
  change execNext s = _ at h
  unfold execNext at h
  rcases whenIdle_cases h with ⟨hp, rfl⟩ | ⟨hp, rfl⟩
  · cases s.HINIT with
    | true => exact .inl ⟨hp, rfl, by simp⟩
    | false => exact .inr (.inl ⟨hp, rfl, by simp⟩)
  · exact .inr (.inr ⟨hp, rfl⟩)

theorem exec_rddig_cases {i : BitVec 3} (h : exec (.rddig i) s = .next s') :
    (s.phase = Phase.idle ∧ s.HINIT = true ∧ s' = s.respond (some (elem s.H i.toNat))) ∨
    (s.phase = Phase.idle ∧ s.HINIT = false ∧ s' = (s.raiseProtocolError .readBeforeInit).respond (some 0#64)) ∨
    (s.phase ≠ Phase.idle ∧ s' = s.respond none) := by
  change execRddig i s = _ at h
  unfold execRddig at h
  rcases whenIdle_cases h with ⟨hp, rfl⟩ | ⟨hp, rfl⟩
  · cases s.HINIT with
    | true => exact .inl ⟨hp, rfl, by simp [digestIndex]⟩
    | false => exact .inr (.inl ⟨hp, rfl, by simp⟩)
  · exact .inr (.inr ⟨hp, rfl⟩)

theorem exec_rdstat_cases (h : exec .rdstat s = .next s') : s' = s.respond (some s.status) :=
  (Host.Outcome.next.inj h).symm

theorem exec_wcopy_cases {t : BitVec 7} (h : exec (.wcopy t) s = .next s') :
    s.phase = Phase.sched ∧ s.t = t ∧ t.toNat ≤ 15 ∧
    s' = ((s.writeW t.toNat (elem s.M t.toNat)).setSeq Phase.sched (t + 1#7)).respond none := by
  change execWcopy t s = _ at h
  obtain ⟨hp, ht, hr, rfl⟩ := whenSelected_cases h
  exact ⟨hp, ht, of_decide_eq_true hr, rfl⟩

theorem exec_wexp_cases {t : BitVec 7} (h : exec (.wexp t) s = .next s') :
    s.phase = Phase.sched ∧ s.t = t ∧ 16 ≤ t.toNat ∧ t.toNat ≤ 79 ∧
    ((t = 79#7 ∧ s' = ((s.writeW t.toNat (expandWord s.W t.toNat)).setSeq Phase.loadv 0#7).respond none) ∨
     (t ≠ 79#7 ∧ s' = ((s.writeW t.toNat (expandWord s.W t.toNat)).setSeq Phase.sched (t + 1#7)).respond none)) := by
  change execWexp t s = _ at h
  obtain ⟨hp, ht, hr, rfl⟩ := whenSelected_cases h
  have hr := of_decide_eq_true hr
  refine ⟨hp, ht, hr.1, hr.2, ?_⟩
  by_cases h79 : t = 79#7
  · exact .inl ⟨h79, by simp [h79]⟩
  · exact .inr ⟨h79, by simp [h79]⟩

theorem exec_loadv_cases (h : exec .loadv s = .next s') :
    s.phase = Phase.loadv ∧ s.t = 0#7 ∧ s' = ((s.writeV s.H).setSeq Phase.round 0#7).respond none := by
  change execLoadv s = _ at h
  obtain ⟨hp, ht, _, rfl⟩ := whenSelected_cases h
  exact ⟨hp, ht, rfl⟩

theorem exec_round_cases {t : BitVec 7} (h : exec (.round t) s = .next s') :
    s.phase = Phase.round ∧ s.t = t ∧ t.toNat ≤ 79 ∧
    ((t = 79#7 ∧ s' = ((s.writeV (roundVars s.V (roundConstant t) (elem s.W t.toNat))).setSeq Phase.fold 0#7).respond
        none) ∨
     (t ≠ 79#7 ∧ s' = ((s.writeV (roundVars s.V (roundConstant t) (elem s.W t.toNat))).setSeq Phase.round
        (t + 1#7)).respond none)) := by
  change execRound t s = _ at h
  obtain ⟨hp, ht, hr, rfl⟩ := whenSelected_cases h
  refine ⟨hp, ht, of_decide_eq_true hr, ?_⟩
  by_cases h79 : t = 79#7
  · exact .inl ⟨h79, by simp [h79]⟩
  · exact .inr ⟨h79, by simp [h79]⟩

theorem exec_fold_cases (h : exec .fold s = .next s') :
    s.phase = Phase.fold ∧ s.t = 0#7 ∧
    s' = (((s.writeH (foldWords s.H s.V)).setDVALID true).setSeq Phase.idle 0#7).respond none := by
  change execFold s = _ at h
  obtain ⟨hp, ht, _, rfl⟩ := whenSelected_cases h
  exact ⟨hp, ht, rfl⟩

end Sys2Proof.Machine
end

