-- ==== Sys2Proof/Laws/Fetch.lean ====
section
/-! SUPPORT. What the decoder of SEQ answers, which selection a step starts from, and what a step can do, each said once. -/

namespace Sys2Proof.Machine

@[simp] theorem seqPhase_append (p : Phase) (n : BitVec 7) : seqPhase (p ++ n) = p := by
  change (p ++ n).extractLsb' 7 3 = p
  ext i hi
  rw [BitVec.getElem_extractLsb', BitVec.getLsbD_append]
  simp [hi]

@[simp] theorem seqIndex_append (p : Phase) (n : BitVec 7) : seqIndex (p ++ n) = n := by
  change (p ++ n).extractLsb' 0 7 = n
  ext i hi
  rw [BitVec.getElem_extractLsb', BitVec.getLsbD_append]
  simp [hi]

/-- R80: the micro-step that SEQ selects, with what the selection says of the state. -/
theorem decodeSeq_ok_cases {s : State} {i : Instr} (h : decodeSeq s.seq = .ok i) :
    (i = .wcopy s.t ∧ s.phase = Phase.sched ∧ s.t.toNat ≤ 15) ∨
    (i = .wexp s.t ∧ s.phase = Phase.sched ∧ 16 ≤ s.t.toNat ∧ s.t.toNat ≤ 79) ∨
    (i = .loadv ∧ s.phase = Phase.loadv ∧ s.t = 0#7) ∨
    (i = .round s.t ∧ s.phase = Phase.round ∧ s.t.toNat ≤ 79) ∨
    (i = .fold ∧ s.phase = Phase.fold ∧ s.t = 0#7) := by
  simp only [decodeSeq, State.seq, seqPhase_append, seqIndex_append, wcopyRange, wexpRange, roundRange,
    decide_eq_true_eq] at h
  repeat' split at h
  all_goals first
    | (obtain rfl := Except.ok.inj h; simp_all)
    | cases h

/-- R80: no micro-step is enabled exactly at SEQ = (IDLE, 0). -/
theorem decodeSeq_noneEnabled {s : State} (h : decodeSeq s.seq = .error .noneEnabled) :
    s.phase = Phase.idle ∧ s.t = 0#7 := by
  simp only [decodeSeq, State.seq, seqPhase_append, seqIndex_append] at h
  repeat' split at h
  all_goals first
    | assumption
    | cases h

theorem decodeSeq_idle {s : State} (hp : s.phase = Phase.idle) (ht : s.t = 0#7) :
    decodeSeq s.seq = .error .noneEnabled := by
  simp [decodeSeq, State.seq, hp, ht]

theorem selectMicroStep_cases (s : State) :
    (∃ i, decodeSeq s.seq = .ok i ∧ selectMicroStep s = .run i s) ∨
    (s.phase = Phase.idle ∧ s.t = 0#7 ∧ selectMicroStep s = .idle s) ∨
    (seqDefined s.seq = false ∧ selectMicroStep s = .stuck) := by
  unfold selectMicroStep seqDefined
  cases h : decodeSeq s.seq with
  | ok i => exact .inl ⟨i, rfl, rfl⟩
  | error e =>
    cases e with
    | noneEnabled => exact .inr (.inl ⟨(decodeSeq_noneEnabled h).1, (decodeSeq_noneEnabled h).2, rfl⟩)
    | illegalCommand op => exact .inr (.inr ⟨rfl, rfl⟩)
    | undefinedSequencer q => exact .inr (.inr ⟨rfl, rfl⟩)

/-- The host's turn: a command taken off the channel, legal or illegal, or the engine's move, or a stop. -/
theorem selectHost_cases (s : State) :
    (∃ c rest i, s.cmds = c :: rest ∧ cmdReady false s.phase c.op = true ∧ decodeCommand c = .ok i ∧
      selectHost s = .run i { s with cmds := rest }) ∨
    (∃ c rest e, s.cmds = c :: rest ∧ cmdReady false s.phase c.op = true ∧ decodeCommand c = .error e ∧
      selectHost s = .illegal { s with cmds := rest }) ∨
    ((∀ c, s.cmds.head? = some c → cmdReady false s.phase c.op = false) ∧ selectHost s = selectMicroStep s) ∨
    (seqDefined s.seq = false ∧ selectHost s = .stuck) := by
  unfold selectHost
  split
  · split
    · rename_i c rest hc
      split
      · rename_i hr
        unfold acceptCommand
        cases hd : decodeCommand c with
        | ok i => exact .inl ⟨c, rest, i, hc, hr, hd, rfl⟩
        | error e => exact .inr (.inl ⟨c, rest, e, hc, hr, hd, rfl⟩)
      · rename_i hr
        refine .inr (.inr (.inl ⟨?_, rfl⟩))
        intro d hd
        rw [hc] at hd
        obtain rfl : c = d := Option.some.inj hd
        exact Bool.eq_false_of_not_eq_true hr
    · rename_i hc
      refine .inr (.inr (.inl ⟨?_, rfl⟩))
      intro d hd
      rw [hc] at hd
      cases hd
  · rename_i hs
    exact .inr (.inr (.inr ⟨Bool.eq_false_of_not_eq_true hs, rfl⟩))

/-- The engine's turn: the micro-step SEQ selects, or what the host's turn gives. -/
theorem selectEngine_cases (s : State) :
    (∃ i, decodeSeq s.seq = .ok i ∧ selectEngine s = .run i s) ∨
    ((∀ i, decodeSeq s.seq ≠ .ok i) ∧ selectEngine s = selectHost s) := by
  unfold selectEngine
  cases h : decodeSeq s.seq with
  | ok i => exact .inl ⟨i, rfl, rfl⟩
  | error e => exact .inr ⟨(fun i h => by cases h), rfl⟩

/-- What a turn that is no reset can select in the state `u`, its turn already taken off. -/
def TurnSelects (u : State) (q : Selection) : Prop :=
  (∃ c rest i, u.cmds = c :: rest ∧ cmdReady false u.phase c.op = true ∧ decodeCommand c = .ok i ∧
    q = .run i { u with cmds := rest }) ∨
  (∃ c rest e, u.cmds = c :: rest ∧ cmdReady false u.phase c.op = true ∧ decodeCommand c = .error e ∧
    q = .illegal { u with cmds := rest }) ∨
  (∃ i, decodeSeq u.seq = .ok i ∧ q = .run i u) ∨
  (u.phase = Phase.idle ∧ u.t = 0#7 ∧ q = .idle u) ∨
  (seqDefined u.seq = false ∧ q = .stuck)

theorem turnSelects_host (u : State) : TurnSelects u (selectHost u) := by
  rcases selectHost_cases u with h | h | ⟨_, h⟩ | h
  · exact .inl h
  · exact .inr (.inl h)
  · rw [h]
    exact .inr (.inr (selectMicroStep_cases u))
  · exact .inr (.inr (.inr (.inr h)))

theorem turnSelects_engine (u : State) : TurnSelects u (selectEngine u) := by
  rcases selectEngine_cases u with h | ⟨_, h⟩
  · exact .inr (.inr (.inl h))
  · rw [h]
    exact turnSelects_host u

theorem select_cases (s : State) :
    (∃ n ts, s.turns = .reset n :: ts ∧ select s = .reset n { s with turns := ts }) ∨
    ((∀ n ts, s.turns ≠ .reset n :: ts) ∧ TurnSelects { s with turns := s.turns.tail } (select s)) := by
  cases ht : s.turns with
  | nil =>
    have hs : ({ s with turns := [] } : State) = s := by rw [← ht]
    refine .inr ⟨by simp, ?_⟩
    rw [select, ht, List.tail_nil, hs]
    cases hr : s.rsp.isSome with
    | true => simpa only [hr, if_true] using turnSelects_engine s
    | false => simpa only [hr, Bool.false_eq_true, if_false] using turnSelects_host s
  | cons u ts =>
    rw [select, ht]
    cases u with
    | reset n => exact .inl ⟨n, ts, rfl, rfl⟩
    | host => exact .inr ⟨by simp, turnSelects_host _⟩
    | engine => exact .inr ⟨by simp, turnSelects_engine _⟩

/-- Everything a step that answers a next state can be: a reset event, a command taken off the channel (legal or illegal), the
micro-step SEQ selects, or an edge at which nothing happens. `ts` are the turns left. -/
theorem step_cases {s s' : State} (h : step s = .next s') :
    (∃ n ts, s.turns = .reset n :: ts ∧ s' = resetEvent { s with turns := ts } n) ∨
    ((∀ n ts, s.turns ≠ .reset n :: ts) ∧ ∃ ts, ts = s.turns.tail ∧
      ((∃ c rest i, s.cmds = c :: rest ∧ cmdReady false s.phase c.op = true ∧ decodeCommand c = .ok i ∧
          exec i { s with cmds := rest, turns := ts } = .next s') ∨
       (∃ c rest e, s.cmds = c :: rest ∧ cmdReady false s.phase c.op = true ∧ decodeCommand c = .error e ∧
          illegalCommand { s with cmds := rest, turns := ts } = .next s') ∨
       (∃ i, decodeSeq s.seq = .ok i ∧ exec i { s with turns := ts } = .next s') ∨
       (s.phase = Phase.idle ∧ s.t = 0#7 ∧ s' = ({ s with turns := ts } : State).respond none))) := by
  unfold step at h
  rcases select_cases s with ⟨n, ts, ht, hq⟩ | ⟨hn, hq⟩
  · rw [hq] at h
    exact .inl ⟨n, ts, ht, (Host.Outcome.next.inj h).symm⟩
  · refine .inr ⟨hn, s.turns.tail, rfl, ?_⟩
    rcases hq with ⟨c, rest, i, hc, hr, hd, hq⟩ | ⟨c, rest, e, hc, hr, hd, hq⟩ | ⟨i, hi, hq⟩ | ⟨hp, h0, hq⟩ | ⟨_, hq⟩ <;>
      rw [hq] at h
    · exact .inl ⟨c, rest, i, hc, hr, hd, h⟩
    · exact .inr (.inl ⟨c, rest, e, hc, hr, hd, h⟩)
    · exact .inr (.inr (.inl ⟨i, hi, h⟩))
    · exact .inr (.inr (.inr ⟨hp, h0, (Host.Outcome.next.inj h).symm⟩))
    · cases h

end Sys2Proof.Machine
end

