-- ==== Sys2Proof/Laws/PerInstr.lean ====
section
/-! SUPPORT. The family EncodedRow: the encoding of every well-formed instruction is selected by a match/mask row of the table
(spec/30_encoding.md R77, R80) that carries its mnemonic. -/

namespace Sys2Proof.Laws.EncodedRow

/-- The code written for the instruction is selected by one of its own rows. -/
def Statement (i : Instr) : Prop :=
  i.wellFormed = true → ∃ r ∈ opcodeTable, r.mnemonic = i.mnemonic ∧ r.selects (encode i) = true

theorem init : Statement .init := fun _ => ⟨⟨"INIT", true, 0x10, 0xFF⟩, by decide⟩

theorem wrblk (i : BitVec 4) (v : Word) : Statement (.wrblk i v) := by
  have major : ∀ i : BitVec 4, ((0x2#4 ++ i).toNat &&& 0xF0 == 0x20) = true := by decide
  exact fun _ => ⟨⟨"WRBLK", true, 0x20, 0xF0⟩, by decide, rfl, major i⟩

theorem next : Statement .next := fun _ => ⟨⟨"NEXT", true, 0x30, 0xFF⟩, by decide⟩

theorem rddig (i : BitVec 3) : Statement (.rddig i) := fun _ =>
  ⟨⟨"RDDIG", true, 0x40, 0xF8⟩, by decide, rfl, by revert i; decide⟩

theorem rdstat : Statement .rdstat := fun _ => ⟨⟨"RDSTAT", true, 0x50, 0xFF⟩, by decide⟩

theorem wcopy (t : BitVec 7) : Statement (.wcopy t) := by
  intro h
  refine ⟨⟨"WCOPY", false, 0x080, 0x3F0⟩, by decide, rfl, ?_⟩
  revert t
  decide

theorem wexp (t : BitVec 7) : Statement (.wexp t) := by
  unfold Statement
  revert t
  decide

theorem loadv : Statement .loadv := fun _ => ⟨⟨"LOADV", false, 0x100, 0x3FF⟩, by decide⟩

theorem round (t : BitVec 7) : Statement (.round t) := by
  unfold Statement
  revert t
  decide

theorem fold : Statement .fold := fun _ => ⟨⟨"FOLD", false, 0x200, 0x3FF⟩, by decide⟩

end Sys2Proof.Laws.EncodedRow
end

