-- ==== Sys2Proof/Laws/Run.lean ====
section
/-! SUPPORT. Runs of several steps: one step first, one run after another, and the agreement with the host's own run; what one
step of the engine or of the host is when the turn is known. -/

namespace Sys2Proof.Machine

@[simp] theorem run_zero (s : State) : run 0 s = .next s := rfl

/-- A step that answers a next state, then the rest of the run. -/
theorem run_succ_of_step {s s' : State} (h : step s = .next s') (n : Nat) : run (n + 1) s = run n s' := by
  rw [run, h]

theorem run_one {s s' : State} (h : step s = .next s') : run 1 s = .next s' := run_succ_of_step h 0

/-- One run after another. -/
theorem run_add {s u : State} {m : Nat} (h : run m s = .next u) (n : Nat) : run (m + n) s = run n u := by
  induction m generalizing s with
  | zero =>
    obtain rfl : s = u := Host.Outcome.next.inj h
    rw [Nat.zero_add]
  | succ m ih =>
    rw [run] at h
    rw [Nat.succ_add]
    cases hs : step s with
    | next s' =>
      rw [hs] at h
      rw [run_succ_of_step hs]
      exact ih h
    | fault r => rw [hs] at h; cases h
    | refused r => rw [hs] at h; cases h

theorem core_run_of_next (M : Host.Core) {s s' : M.State} (h : M.step s = .next s') (n : Nat) :
    M.run (n + 1) s = M.run n s' := by
  rw [Host.Core.run, h]

theorem core_run_of_fault (M : Host.Core) {s : M.State} {r : M.Fault} (h : M.step s = .fault r) (n : Nat) :
    M.run (n + 1) s = .fault r := by
  rw [Host.Core.run, h]

theorem core_run_of_refused (M : Host.Core) {s : M.State} {r : M.Refusal} (h : M.step s = .refused r) (n : Nat) :
    M.run (n + 1) s = .refused r := by
  rw [Host.Core.run, h]

/-- `run` is the host's own run of this machine. -/
theorem run_eq_core_run (n : Nat) (s : State) : run n s = Host.Core.run Sys2Proof.core n s := by
  induction n generalizing s with
  | zero => rfl
  | succ n ih =>
    cases h : step s with
    | next s' => exact (run_succ_of_step h n).trans ((ih s').trans (core_run_of_next Sys2Proof.core h n).symm)
    | fault r =>
      have e : run (n + 1) s = .fault r := by rw [run, h]
      exact e.trans (core_run_of_fault Sys2Proof.core h n).symm
    | refused r =>
      have e : run (n + 1) s = .refused r := by rw [run, h]
      exact e.trans (core_run_of_refused Sys2Proof.core h n).symm

/-- A step whose selection is known. -/
theorem step_of_run {s u : State} {i : Instr} (h : select s = .run i u) : step s = exec i u := by
  rw [step, h]

theorem selectMicroStep_of_ok {s : State} {i : Instr} (h : decodeSeq s.seq = .ok i) :
    selectMicroStep s = .run i s := by
  rw [selectMicroStep, h]

theorem selectEngine_of_ok {s : State} {i : Instr} (h : decodeSeq s.seq = .ok i) : selectEngine s = .run i s := by
  rw [selectEngine, h]

theorem turns_tail_of_nil {s : State} (h : s.turns = []) : ({ s with turns := s.turns.tail } : State) = s := by
  rw [h, List.tail_nil, ← h]

theorem select_of_engine {s : State} (h : EngineTurn s) : select s = selectEngine { s with turns := s.turns.tail } := by
  rcases h with ⟨h, hr⟩ | ⟨ts, h⟩
  · rw [turns_tail_of_nil h, select, h]
    simp only [hr, if_true]
  · rw [select, h]
    rfl

theorem select_of_host {s : State} (h : HostTurn s) : select s = selectHost { s with turns := s.turns.tail } := by
  rcases h with ⟨h, hr⟩ | ⟨ts, h⟩
  · rw [turns_tail_of_nil h, select, h]
    simp only [hr, Option.isSome_none, Bool.false_eq_true, if_false]
  · rw [select, h]
    rfl

/-- R8: whose turn the next step is: a reset event's, the host's or the engine's. -/
theorem turn_cases (s : State) : (∃ n ts, s.turns = .reset n :: ts) ∨ HostTurn s ∨ EngineTurn s := by
  unfold HostTurn EngineTurn
  cases h : s.turns with
  | nil => cases hr : s.rsp <;> simp
  | cons u ts => cases u <;> simp

/-- A command that `cmd_ready` lets in is taken off the channel. -/
theorem selectHost_of_ready {s : State} {c : Command} {rest : List Command} (hd : seqDefined s.seq = true)
    (hc : s.cmds = c :: rest) (hr : cmdReady false s.phase c.op = true) :
    selectHost s = acceptCommand c { s with cmds := rest } := by
  simp only [selectHost, hd, hc, hr, if_true]

/-- A held or absent command leaves the step to the engine. -/
theorem selectHost_of_held {s : State} (hd : seqDefined s.seq = true)
    (h : ∀ c, s.cmds.head? = some c → cmdReady false s.phase c.op = false) : selectHost s = selectMicroStep s := by
  unfold selectHost
  rw [if_pos hd]
  cases hc : s.cmds with
  | nil => rfl
  | cons c rest =>
    have := h c (by rw [hc]; rfl)
    simp [this]

/-- In (IDLE, 0) an offered command is accepted on every turn that is no reset. -/
theorem select_of_idle_offer {s : State} {c : Command} {rest : List Command} (hn : NoReset s) (hp : s.phase = Phase.idle)
    (h0 : s.t = 0#7) (hc : s.cmds = c :: rest) :
    select s = acceptCommand c { s with cmds := rest, turns := s.turns.tail } := by
  have hi := decodeSeq_idle hp h0
  have hd : seqDefined s.seq = true := by simp only [seqDefined, hi]
  have hr : cmdReady false s.phase c.op = true := by simp [cmdReady, hp]
  have host : selectHost { s with turns := s.turns.tail } = acceptCommand c { s with cmds := rest, turns := s.turns.tail } :=
    selectHost_of_ready hd hc hr
  rcases turn_cases s with ⟨n, ts, h⟩ | h | h
  · exact absurd h (hn n ts)
  · rw [select_of_host h, host]
  · rw [select_of_engine h, selectEngine, show decodeSeq (State.seq { s with turns := s.turns.tail }) = _ from hi]
    exact host

end Sys2Proof.Machine
end

