-- ==== Sys2Proof/Tests/Slice0.lean ====
section
/-! SUPPORT. The model's own tests. Expected results come from spec/: the encodings of spec/30_encoding.md, the vectors V1 to V10
and the examples of spec/95_test_vectors.md, the corner cases of the rules. At the end, for every statement with
hypotheses, concrete states and operands that meet them together. -/

namespace Sys2Proof.Tests

open Sys2Proof Sys2Proof.Machine

/-! ### Helpers -/

/-- A legal state with the given sequencer; HINIT = 1 as in every busy state (R37). -/
def at0 (p : Phase) (t : BitVec 7) : State := { State.reset with phase := p, t := t, HINIT := true }

/-- An idle engine after INIT. -/
def ready : State := { State.reset with H := romIV, HINIT := true }

/-- The block of the message "abc" (V3 (a)). -/
def abcBlock : Vector Word 16 :=
  #v[0x6162638000000000#64, 0#64, 0#64, 0#64, 0#64, 0#64, 0#64, 0#64, 0#64, 0#64, 0#64, 0#64, 0#64, 0#64, 0#64, 0x18#64]

/-- One observation of the state that an instruction answers, `none` where it does not answer one. -/
def after {α : Type} (o : Host.Outcome State Fault Refusal) (f : State → α) : Option α :=
  match o with
  | .next s => some (f s)
  | .fault _ => none
  | .refused _ => none

/-- Offer one command to the state and take one step. -/
def offer (s : State) (op : BitVec 8) (d : Word) : Host.Outcome State Fault Refusal :=
  step { s with cmds := [⟨op, d⟩] }

/-! ### WellFormed: an ill-formed term for each check, and the last well-formed one (R80) -/

theorem test_wcopy_range : (Instr.wcopy 16#7).wellFormed = false ∧ (Instr.wcopy 15#7).wellFormed = true := by decide

theorem test_wexp_range : (Instr.wexp 15#7).wellFormed = false ∧ (Instr.wexp 80#7).wellFormed = false ∧
    (Instr.wexp 16#7).wellFormed = true ∧ (Instr.wexp 79#7).wellFormed = true := by decide

theorem test_round_range : (Instr.round 80#7).wellFormed = false ∧ (Instr.round 79#7).wellFormed = true := by decide

/-! ### Decoding words written out from R77 (OP = MAJ IDX) and R80 (SEQ = phase t) -/

theorem test_decode_init : decodeCommand ⟨0b00010000#8, 0xFFFFFFFFFFFFFFFF#64⟩ = .ok .init := by decide
theorem test_decode_wrblk : decodeCommand ⟨0b00100101#8, 0x0123456789ABCDEF#64⟩ = .ok (.wrblk 5#4 0x0123456789ABCDEF#64) := by
  decide
theorem test_decode_next : decodeCommand ⟨0b00110000#8, 1#64⟩ = .ok .next := by decide
theorem test_decode_rddig : decodeCommand ⟨0b01000011#8, 1#64⟩ = .ok (.rddig 3#3) := by decide
theorem test_decode_rdstat : decodeCommand ⟨0b01010000#8, 1#64⟩ = .ok .rdstat := by decide
theorem test_decode_wcopy : decodeSeq 0b0010000101#10 = .ok (.wcopy 5#7) := by decide
theorem test_decode_wexp : decodeSeq 0b0011000000#10 = .ok (.wexp 64#7) := by decide
theorem test_decode_loadv : decodeSeq 0b0100000000#10 = .ok .loadv := by decide
theorem test_decode_round : decodeSeq 0b0111000001#10 = .ok (.round 65#7) := by decide
theorem test_decode_fold : decodeSeq 0b1000000000#10 = .ok .fold := by decide

/-- R78: the codes V6 lists as illegal. -/
theorem test_decode_illegal : ∀ op ∈ [0x00#8, 0x11#8, 0x31#8, 0x48#8, 0x51#8, 0x60#8, 0xff#8],
    decodeCommand ⟨op, 0#64⟩ = .error (.illegalCommand op) := by decide

/-- R80, U6: undefined values of SEQ: (IDLE, 1), (SCHED, 80), (LOADV, 1), (ROUND, 80), (FOLD, 1), (5, 0). -/
theorem test_decode_undefined : ∀ q ∈ [0x001#10, 0x0D0#10, 0x101#10, 0x1D0#10, 0x201#10, 0x280#10],
    decodeSeq q = .error (.undefinedSequencer q) := by decide

/-- The table words: a command row of 8 bits, a SEQ row of 10 bits in two bytes. -/
theorem test_table_words : decodeTableWord 8 0x2F = some (.wrblk 15#4 0#64) ∧ decodeTableWord 16 0x1C0 = some (.round 64#7) ∧
    decodeTableWord 8 0x48 = none ∧ decodeTableWord 16 0x280 = none := by decide

/-- Every row of the table runs as the first instruction after reset. -/
theorem test_rows_run : ∀ p ∈ [(8, 0x10), (8, 0x20), (8, 0x30), (8, 0x40), (8, 0x50), (16, 0x080), (16, 0x090), (16, 0x0A0),
      (16, 0x0C0), (16, 0x100), (16, 0x180), (16, 0x1C0), (16, 0x200)],
    (after (step (State.reset.withFetchWord p.1 p.2)) fun _ => true) = some true := by decide

/-! ### Commands (V6) -/

theorem test_init : (after (offer State.reset 0x10#8 0xffffffffffffffff#64) fun s => (s.H, s.status, s.rsp)) =
    some (romIV, 0x2#64, none) := by decide

/-- INIT does not clear a recorded error (R186). -/
theorem test_init_keeps_error : (after (offer { State.reset with ERR := true, ECODE := 2#4 } 0x10#8 0#64) State.status) =
    some 0x2a#64 := by decide

theorem test_wrblk : (after (offer State.reset 0x25#8 0x0123456789abcdef#64) fun s => (elem s.M 5, elem s.M 4, s.status)) =
    some (0x0123456789abcdef#64, 0#64, 0#64) := by decide

theorem test_next_before_init : (after (offer State.reset 0x30#8 0#64) fun s => (s.status, s.phase)) =
    some (0x28#64, Phase.idle) := by decide

theorem test_next_starts : (after (offer { ready with DVALID := true } 0x30#8 0#64) fun s => (s.seq, s.DVALID)) =
    some (0x080#10, false) := by decide

theorem test_rddig_before_init : (after (offer State.reset 0x40#8 0#64) fun s => (s.rsp, s.status)) =
    some (some 0#64, 0x38#64) := by decide

theorem test_rddig_last : (after (offer ready 0x47#8 0#64) State.rsp) = some (some 0x5be0cd19137e2179#64) := by decide

theorem test_rdstat_busy : (after (offer (at0 Phase.round 5#7) 0x50#8 0#64) fun s => (s.rsp, s.t)) =
    some (some 3#64, 5#7) := by decide

/-- Decode comes first (R185): RDDIG 8 is illegal and gives no response; the first cause is kept. -/
theorem test_illegal : (after (offer State.reset 0x48#8 0#64) fun s => (s.rsp, s.status)) = some (none, 0x18#64) ∧
    (after (offer { State.reset with ERR := true, ECODE := 2#4 } 0x00#8 0#64) State.status) = some 0x28#64 := by decide

/-- R73: a command offered while BUSY is held and the engine moves. -/
theorem test_held : (after (offer (at0 Phase.loadv 0#7) 0x00#8 0#64) fun s => (s.cmds.length, s.seq, s.ERR)) =
    some (1, 0x180#10, false) := by decide

/-- R83: WAIT at the last micro-step: one poll reads BUSY = 1 (R145), FOLD runs, the second reads BUSY = 0. -/
theorem test_wait : (waitRun 3 (at0 Phase.fold 0#7)).map (fun r => (r.1, r.2.seq)) = some ([3#64, 6#64], 0#10) ∧
    waitExpansion 3 (at0 Phase.fold 0#7) = some [⟨0x50#8, 0#64⟩, ⟨0x50#8, 0#64⟩] ∧ waitRun 2 (at0 Phase.fold 0#7) = none := by decide

/-! ### Micro-steps (V3, V4, V10) -/

theorem test_wcopy : (after (step { at0 Phase.sched 0#7 with M := abcBlock }) fun s => (elem s.W 0, s.seq)) =
    some (0x6162638000000000#64, 0x081#10) := by decide

/-- V3: W[17] of the block "abc" from W[15] = 0x18; and the last step hands over to LOADV (V10). -/
theorem test_wexp : (after (step { at0 Phase.sched 17#7 with W := setElem (Vector.replicate 80 0#64) 15 0x18#64 })
      fun s => (elem s.W 17, s.seq)) = some (0x00030000000000c0#64, 0x092#10) ∧
    (after (step (at0 Phase.sched 79#7)) State.seq) = some 0x100#10 := by decide

/-- V3 (b): four carries out of bit 63 are discarded. -/
theorem test_wexp_wraps : (after (step { at0 Phase.sched 16#7 with W := Vector.replicate 80 0xffffffffffffffff#64 })
      fun s => elem s.W 16) = some 0x05fffffffffffffc#64 := by decide

theorem test_loadv : (after (step { at0 Phase.loadv 0#7 with H := romIV }) fun s => (elem s.V 0, elem s.V 7, s.seq)) =
    some (0x6A09E667F3BCC908#64, 0x5BE0CD19137E2179#64, 0x180#10) := by decide

/-- V4, t = 0. -/
theorem test_round_zero : (after (step { at0 Phase.round 0#7 with V := romIV, W := setElem (Vector.replicate 80 0#64) 0 0x6162638000000000#64 })
      fun s => (s.V, s.seq)) =
    some (#v[0xf6afceb8bcfcddf5#64, 0x6a09e667f3bcc908#64, 0xbb67ae8584caa73b#64, 0x3c6ef372fe94f82b#64,
             0x58cb02347ab51f91#64, 0x510e527fade682d1#64, 0x9b05688c2b3e6c1f#64, 0x1f83d9abfb41bd6b#64], 0x181#10) := by decide

/-- V4: the working variables of "abc" after ROUND 78. -/
def afterRound78 : Vector Word 8 :=
  #v[0x10d9c4c4295599f6#64, 0xd67806db8b148677#64, 0x654ef9abec389ca9#64, 0xc8960e6be864b916#64,
     0x9bb4d39778c07f9e#64, 0x25c96a7768fb2aa3#64, 0xceb9fc3691ce8326#64, 0x995019a6ff3ba3de#64]

/-- V4, t = 79, with the last schedule word of V3. -/
theorem test_round_last :
    (after (step { at0 Phase.round 79#7 with V := afterRound78, W := setElem (Vector.replicate 80 0#64) 79 0x92aeeed1a7bcf7d2#64 })
      fun s => (elem s.V 0, elem s.V 4, s.seq)) = some (0x73a54f399fa4b1b2#64, 0xd08446aa79693ed7#64, 0x200#10) := by decide

/-- V4: the first and the last working variable after ROUND 79. -/
def afterRound79 : Vector Word 8 :=
  #v[0x73a54f399fa4b1b2#64, 0#64, 0#64, 0#64, 0#64, 0#64, 0#64, 0xceb9fc3691ce8326#64]

/-- V4, FOLD: the first and the last word, and the flags. -/
theorem test_fold :
    (after (step { at0 Phase.fold 0#7 with H := romIV, V := afterRound79 })
      fun s => (elem s.H 0, elem s.H 7, s.status, s.seq)) =
    some (0xddaf35a193617aba#64, 0x2a9ac94fa54ca49f#64, 6#64, 0#10) := by decide

/-! ### Words (V1, V2) -/

theorem test_rotr : rotr 0x0123456789abcdef#64 8 = 0xef0123456789abcd#64 ∧ rotr 1#64 61 = 8#64 ∧
    shr 0x0123456789abcdef#64 6 = 0x00048d159e26af37#64 := by decide

theorem test_sigmas : bigSigma0 0x0123456789abcdef#64 = 0xb7c57a100c7ec1ab#64 ∧
    bigSigma1 0x0123456789abcdef#64 = 0x7703112333475567#64 ∧
    littleSigma0 0x0123456789abcdef#64 = 0x6f92c77c6c4f1aa1#64 ∧
    littleSigma1 0x0123456789abcdef#64 = 0x70a3460dbbd4317a#64 := by decide

theorem test_ch_maj : ch 0xaaaaaaaaaaaaaaaa#64 0x0123456789abcdef#64 0xfedcba9876543210#64 = 0x54761032dcfe98ba#64 ∧
    maj 0x6a09e667f3bcc908#64 0xbb67ae8584caa73b#64 0x3c6ef372fe94f82b#64 = 0x3a6fe667f69ce92b#64 := by decide

/-! ### The host's functions (V7, R169) -/

theorem test_block_counts : [0, 111, 112, 127, 128, 239, 240, 1000000].map blockCount = [1, 1, 2, 2, 2, 2, 3, 7813] := by
  decide

/-- V3 (a): the one block of "abc". -/
theorem test_pad_abc : (match pad [0x61#8, 0x62#8, 0x63#8] with
    | .ok bs => decide (bs = [abcBlock])
    | .error _ => false) = true := by decide

/-- R169: leading zeros are kept. -/
theorem test_hex_word : hexWord 0x0A9EEEE64B55D39A#64 = "0a9eeee64b55d39a".toList := by decide

/-! ### The hypotheses of the statements are met -/

theorem witness_EncodeThenDecode : (Instr.wexp 79#7).wellFormed = true ∧ (Instr.rddig 7#3).wellFormed = true := by decide

theorem witness_DecodeThenEncode : decodeCommand ⟨0x2F#8, 0x18#64⟩ = .ok (.wrblk 15#4 0x18#64) ∧ opMajor 0x2F#8 = 0x2#4 ∧
    decodeSeq 0x0CF#10 = .ok (.wexp 79#7) := by decide

theorem legal_reset : Legal State.reset := by unfold Legal PhaseLegal IndexLegal FlagsLegal ErrorLegal; decide

theorem legal_busy : Legal (at0 Phase.sched 79#7) ∧ Legal (at0 Phase.round 79#7) ∧ Legal (at0 Phase.loadv 0#7) ∧
    Legal (at0 Phase.fold 0#7) := by
  refine ⟨?_, ?_, ?_, ?_⟩ <;> (unfold Legal PhaseLegal IndexLegal FlagsLegal ErrorLegal; decide)

/-- Legal states: idle and busy, for SequencerValueSelectsTheMicroStep, LegalStatesNeverStop, StatusTakesSixteenValues. -/
theorem witness_SequencerValueSelects : Legal State.reset ∧ Legal (at0 Phase.round 79#7) := ⟨legal_reset, legal_busy.2.1⟩

/-- An idle engine is offered WRBLK 15 on the host's turn, given or by default. -/
def offered : State := { ready with cmds := [⟨0x2F#8, 7#64⟩], turns := [.host, .engine] }

theorem witness_StepRunsTheAcceptedCommand : HostTurn offered ∧ HostTurn { offered with turns := [] } ∧
    (EngineTurn { offered with turns := [.engine] } ∧ offered.phase = Phase.idle) ∧
    seqDefined offered.seq = true ∧ offered.cmds = ⟨0x2F#8, 7#64⟩ :: [] ∧ cmdReady false offered.phase 0x2F#8 = true ∧
    decodeCommand ⟨0x2F#8, 7#64⟩ = .ok (.wrblk 15#4 7#64) :=
  ⟨.inr ⟨_, rfl⟩, .inl ⟨rfl, rfl⟩, ⟨.inr ⟨_, rfl⟩, rfl⟩, by decide, rfl, by decide, by decide⟩

/-- The engine's own turn, and a command held while BUSY. -/
theorem witness_StepRunsTheSelectedMicroStep :
    EngineTurn { at0 Phase.sched 15#7 with turns := [.engine] } ∧
    decodeSeq (State.seq { at0 Phase.sched 15#7 with turns := [.engine] }) = .ok (.wcopy 15#7) ∧
    (HostTurn { at0 Phase.fold 0#7 with cmds := [⟨0x30#8, 0#64⟩] } ∧
      ∀ c, (State.cmds { at0 Phase.fold 0#7 with cmds := [⟨0x30#8, 0#64⟩] }).head? = some c →
        cmdReady false (at0 Phase.fold 0#7).phase c.op = false) ∧
    decodeSeq (State.seq { at0 Phase.fold 0#7 with cmds := [⟨0x30#8, 0#64⟩] }) = .ok .fold :=
  ⟨.inr ⟨_, rfl⟩, by decide, ⟨.inl ⟨rfl, rfl⟩, (fun _ h => by cases h; decide)⟩, by decide⟩

theorem witness_IdleEdge : NoReset State.reset ∧ State.reset.cmds = [] ∧ State.reset.phase = Phase.idle ∧ State.reset.t = 0#7 :=
  ⟨(fun _ _ h => by cases h), rfl, rfl, rfl⟩

/-- R73's clauses: accepted in IDLE, RDSTAT in BUSY, another command held in BUSY. -/
theorem witness_CommandsAreAcceptedOrHeld :
    (NoReset offered ∧ offered.phase = Phase.idle ∧ offered.t = 0#7 ∧ offered.cmds = ⟨0x2F#8, 7#64⟩ :: []) ∧
    (seqDefined (at0 Phase.round 79#7).seq = true ∧ HostTurn { at0 Phase.round 79#7 with cmds := [⟨0x50#8, 0#64⟩] }) ∧
    (NoReset { at0 Phase.fold 0#7 with cmds := [⟨0x30#8, 0#64⟩] } ∧ (at0 Phase.fold 0#7).phase ≠ Phase.idle ∧
      (0x30#8 : BitVec 8) ≠ 0x50#8 ∧ ∃ s', step { at0 Phase.fold 0#7 with cmds := [⟨0x30#8, 0#64⟩] } = .next s') :=
  ⟨⟨(fun _ _ h => by cases h), rfl, rfl, rfl⟩, ⟨by decide, .inl ⟨rfl, rfl⟩⟩, (fun _ _ h => by cases h), by decide, by decide, ⟨_, rfl⟩⟩

theorem witness_IllegalCommand : NoReset { ready with cmds := [⟨0x48#8, 0#64⟩] } ∧ ready.phase = Phase.idle ∧ ready.t = 0#7 ∧
    decodeCommand ⟨0x48#8, 0#64⟩ = .error (.illegalCommand 0x48#8) ∧ (at0 Phase.round 0#7).phase ≠ Phase.idle :=
  ⟨(fun _ _ h => by cases h), rfl, rfl, by decide, by decide⟩

theorem witness_ResetEvent : State.turns { at0 Phase.round 7#7 with turns := [.reset 1, .engine] } = .reset 1 :: [.engine] := rfl

theorem witness_UndefinedSequencer : NoReset (at0 5#3 0#7) ∧ seqDefined (at0 5#3 0#7).seq = false ∧
    NoReset (at0 Phase.sched 80#7) ∧ seqDefined (at0 Phase.sched 80#7).seq = false :=
  ⟨(fun _ _ h => by cases h), by decide, (fun _ _ h => by cases h), by decide⟩

/-- For INIT, WRBLK, NEXT, RDDIG, RDSTAT and ProtocolErrorAction: idle with HINIT 0 and 1, and busy. -/
theorem witness_HostCommands : State.reset.phase = Phase.idle ∧ State.reset.HINIT = false ∧ ready.phase = Phase.idle ∧
    ready.HINIT = true ∧ (at0 Phase.sched 0#7).phase ≠ Phase.idle ∧ (∃ u, exec .init ready = .next u) ∧
    (∃ u, exec (.wrblk 15#4 7#64) ready = .next u) ∧ 0x48 ≤ (0x4F#8 : BitVec 8).toNat ∧ (0x4F#8 : BitVec 8).toNat ≤ 0x4F :=
  ⟨rfl, rfl, rfl, rfl, by decide, ⟨_, rfl⟩, ⟨_, rfl⟩, by decide, by decide⟩

theorem witness_WrblkTwice : ready.phase = Phase.idle ∧ (3#4 : BitVec 4) = 3#4 ∧ (0#4 : BitVec 4) ≠ 15#4 := by decide

theorem witness_HeldCommands : (at0 Phase.sched 0#7).phase ≠ Phase.idle ∧ Instr.init.isCommand = true ∧ Instr.init ≠ .rdstat := by
  decide

theorem witness_StatusFieldsAreViews : IsResetState { State.reset with H := romIV } := ⟨rfl, rfl, rfl, rfl, rfl, rfl⟩

theorem witness_Wcopy : (15#7 : BitVec 7).toNat ≤ 15 ∧ (at0 Phase.sched 15#7).phase = Phase.sched ∧
    (at0 Phase.sched 15#7).t = 15#7 := by decide

theorem witness_Wexp : (∀ t ∈ [16#7, 79#7], 16 ≤ t.toNat ∧ t.toNat ≤ 79 ∧ (at0 Phase.sched t).phase = Phase.sched ∧
    (at0 Phase.sched t).t = t) := by decide

theorem witness_Loadv : (at0 Phase.loadv 0#7).phase = Phase.loadv ∧ (at0 Phase.loadv 0#7).t = 0#7 := by decide

theorem witness_Round : (79#7 : BitVec 7).toNat ≤ 79 ∧ (at0 Phase.round 79#7).phase = Phase.round ∧
    (at0 Phase.round 79#7).t = 79#7 ∧
    (at0 Phase.round 79#7).V = #v[0#64, 0#64, 0#64, 0#64, 0#64, 0#64, 0#64, 0#64] := ⟨by decide, rfl, rfl, rfl⟩

theorem witness_Fold : (at0 Phase.fold 0#7).phase = Phase.fold ∧ (at0 Phase.fold 0#7).t = 0#7 := by decide

theorem witness_UnselectedMicroStep : (Instr.wcopy 3#7).isCommand = false ∧
    decodeSeq (at0 Phase.sched 4#7).seq ≠ .ok (.wcopy 3#7) := by decide

/-- For the frame: each instruction answers a next state somewhere. -/
theorem witness_EveryInstructionKeeps : (∃ u, exec .next ready = .next u) ∧ (∃ u, exec (.rddig 7#3) ready = .next u) ∧
    (∃ u, exec .rdstat ready = .next u) ∧ (∃ u, exec (.wcopy 15#7) (at0 Phase.sched 15#7) = .next u) ∧
    (∃ u, exec (.wexp 79#7) (at0 Phase.sched 79#7) = .next u) ∧ (∃ u, exec .loadv (at0 Phase.loadv 0#7) = .next u) ∧
    (∃ u, exec (.round 79#7) (at0 Phase.round 79#7) = .next u) ∧ (∃ u, exec .fold (at0 Phase.fold 0#7) = .next u) :=
  ⟨⟨_, rfl⟩, ⟨_, rfl⟩, ⟨_, rfl⟩, ⟨_, rfl⟩, ⟨_, rfl⟩, ⟨_, rfl⟩, ⟨_, rfl⟩, ⟨_, rfl⟩⟩

theorem witness_ErrorsComeOnlyFrom : ∃ u, exec .next State.reset = .next u ∧ u.ERR ≠ State.reset.ERR := ⟨_, rfl, by decide⟩

theorem witness_ErrorIsSticky : NoReset { ready with ERR := true, ECODE := 2#4, cmds := [⟨0x10#8, 0#64⟩] } ∧
    ∃ u, step { ready with ERR := true, ECODE := 2#4, cmds := [⟨0x10#8, 0#64⟩] } = .next u :=
  ⟨(fun _ _ h => by cases h), ⟨_, rfl⟩⟩

theorem witness_OnlyInitFoldAndWrblk :
    (∃ u, NoReset { State.reset with cmds := [⟨0x10#8, 0#64⟩] } ∧ step { State.reset with cmds := [⟨0x10#8, 0#64⟩] } = .next u ∧
      u.H ≠ State.reset.H) ∧
    (∃ u, step { State.reset with cmds := [⟨0x20#8, 1#64⟩] } = .next u ∧ u.M ≠ State.reset.M) :=
  ⟨⟨_, (fun _ _ h => by cases h), rfl, by decide⟩, ⟨_, rfl, by decide⟩⟩

theorem witness_EveryStepKeepsTheLegalStates : IsResetState State.reset ∧ Legal (at0 Phase.sched 79#7) ∧
    ∃ u, step (at0 Phase.sched 79#7) = .next u := ⟨⟨rfl, rfl, rfl, rfl, rfl, rfl⟩, legal_busy.1, ⟨_, rfl⟩⟩

theorem witness_RoundFunction : ∃ T1 T2 : Word,
    T1 = 0#64 + bigSigma1 0#64 + ch 0#64 0#64 0#64 + 0#64 + 0#64 ∧ T2 = bigSigma0 0#64 + maj 0#64 0#64 0#64 := ⟨_, _, rfl, rfl⟩

/-- A state in the last phase with the arrays of its own compression. -/
def tracked : State :=
  { at0 Phase.fold 0#7 with M := abcBlock, W := schedule abcBlock, V := roundsFn (schedule abcBlock) (at0 Phase.fold 0#7).H 80 }

theorem witness_OnTrack : TracksCompress tracked ∧ tracked.phase = Phase.fold ∧ tracked.t = 0#7 ∧
    TracksCompress (at0 Phase.sched 0#7) ∧ ∃ u, step (at0 Phase.sched 0#7) = .next u :=
  ⟨⟨(fun h => by cases h), (fun h => by cases h), (fun h => by cases h), fun _ => ⟨rfl, rfl⟩⟩, rfl, rfl,
    ⟨fun _ i h => absurd h (Nat.not_lt_zero i), (fun h => by cases h), (fun h => by cases h), (fun h => by cases h)⟩, ⟨_, rfl⟩⟩

theorem witness_SchedulePhase : (at0 Phase.sched 0#7).phase = Phase.sched ∧ (at0 Phase.sched 0#7).t = 0#7 ∧
    State.turns { at0 Phase.sched 0#7 with turns := List.replicate 80 .engine } = List.replicate 80 .engine ++ [] := by decide

theorem witness_NextCompresses : ready.phase = Phase.idle ∧ ready.t = 0#7 ∧ ready.HINIT = true ∧
    State.cmds { ready with cmds := [⟨0x30#8, 0#64⟩], turns := .host :: (List.replicate 162 .engine ++ []) } =
      ⟨0x30#8, 0#64⟩ :: [] ∧
    State.turns { ready with cmds := [⟨0x30#8, 0#64⟩], turns := .host :: (List.replicate 162 .engine ++ []) } =
      .host :: (List.replicate 162 .engine ++ []) := ⟨rfl, rfl, rfl, rfl, rfl⟩

/-- For the statements about a BUSY engine: no reset turn, with and without a poll offered. -/
theorem witness_BusyEngineBecomesIdle : Legal (at0 Phase.sched 79#7) ∧ (at0 Phase.sched 79#7).phase ≠ Phase.idle ∧
    (∀ n, Turn.reset n ∉ (at0 Phase.sched 79#7).turns) ∧ NoReset { at0 Phase.sched 79#7 with cmds := [⟨0x50#8, 0#64⟩] } ∧
    HostWaits (at0 Phase.sched 79#7) ∧ HostWaits { at0 Phase.sched 0#7 with cmds := [⟨0x30#8, 0#64⟩] } :=
  ⟨legal_busy.1, by decide, (fun _ h => by cases h), (fun _ _ h => by cases h), ⟨rfl, (fun _ h => by cases h)⟩, ⟨rfl, (fun _ h => by cases h; decide)⟩⟩

/-- The end of `foldRun`: idle, the digest valid, an illegal command recorded. -/
def foldDone : State := { ready with H := Vector.replicate 8 0#64, DVALID := true, ERR := true, ECODE := 1#4 }

/-- A run without end and without inputs: FOLD while an illegal command is held, its acceptance, and idle edges from then on. -/
def foldRun : Nat → State
  | 0 => { at0 Phase.fold 0#7 with cmds := [⟨0#8, 0#64⟩] }
  | 1 => { ready with H := Vector.replicate 8 0#64, DVALID := true, cmds := [⟨0#8, 0#64⟩] }
  | _ + 2 => foldDone

def noInputs : Nat → List Command × List Turn := fun _ => ([], [])

/-- For the two statements about runs without end. -/
theorem witness_FairRuns : OpenRun noInputs foldRun ∧ Legal (foldRun 0) ∧ WeaklyFair noInputs foldRun ∧
    (foldRun 0).phase ≠ Phase.idle ∧ (∀ m, 0 ≤ m → takesReset ((foldRun m).feed (noInputs m)) = false) ∧
    (foldRun 0).cmds = ⟨0#8, 0#64⟩ :: [] ∧ (∃ n, ∀ m, n ≤ m → (noInputs m).2 = []) := by
  refine ⟨?_, legal_busy.2.2.2, ?_, by decide, ?_, rfl, 0, fun _ _ => rfl⟩
  · intro n
    match n with
    | 0 => rfl
    | 1 => rfl
    | _ + 2 => exact (rfl : step (foldDone.feed ([], [])) = .next foldDone)
  · intro n h
    obtain ⟨i, hi⟩ := h (n + 2) (Nat.le_add_right n 2)
    have hd : decodeSeq foldDone.seq = .error .noneEnabled := by decide
    cases hd.symm.trans hi
  · intro m _
    match m with
    | 0 => rfl
    | 1 => rfl
    | _ + 2 => exact (rfl : takesReset (foldDone.feed ([], [])) = false)

/-- The engine with the whole of R150's sequence offered, for one block. -/
def driven : State := { State.reset with cmds := chainCommands [abcBlock] ++ digestCommands }

theorem witness_Driving : [abcBlock] ≠ [] ∧ driven.phase = Phase.idle ∧ driven.t = 0#7 ∧ driven.ERR = false ∧ driven.ECODE = 0#4 ∧
    driven.turns = [] ∧ driven.cmds = chainCommands [abcBlock] ++ digestCommands := ⟨by decide, rfl, rfl, rfl, rfl, rfl, rfl⟩

/-- Two idle engines after INIT that differ in `W` and `V`. -/
theorem witness_HiddenWords : Legal ready ∧ SameView ready { ready with W := Vector.replicate 80 5#64, V := romIV } := by
  refine ⟨by unfold Legal PhaseLegal IndexLegal FlagsLegal ErrorLegal; decide, ?_⟩
  exact ⟨rfl, rfl, rfl, rfl, rfl, rfl, rfl, rfl, rfl, rfl, rfl, fun _ => rfl, (fun h => by cases h), (fun h => by cases h),
    (fun h => by cases h), (fun h => by cases h)⟩

theorem witness_RotationAndShift : 0 < 61 ∧ 61 < 64 ∧ 63 < 64 := by decide

theorem witness_BlockCountThreshold : 111 % 128 ≤ 111 ∧ 112 ≤ 112 % 128 := by decide

/-- A message whose padding byte ends up in a block before the last (C1). -/
theorem witness_PaddedMessage : (∃ bs, pad [] = .ok bs) ∧ ∃ bs, pad (List.replicate 112 0#8) = .ok bs := ⟨⟨_, rfl⟩, ⟨_, rfl⟩⟩

/-- For WAIT: an idle and a busy engine with every command accepted. -/
theorem witness_Wait : Legal (at0 Phase.fold 0#7) ∧ (at0 Phase.fold 0#7).cmds = [] ∧ (at0 Phase.fold 0#7).turns = [] ∧
    (at0 Phase.fold 0#7).rsp = none ∧ Legal State.reset ∧ State.reset.cmds = [] := ⟨legal_busy.2.2.2, rfl, rfl, rfl, legal_reset, rfl⟩

/-- Both sides of the limit: a list of 2^61 bytes and one of a single byte. -/
theorem witness_InputTooLarge : 2 ^ 61 ≤ (List.replicate (2 ^ 61) (0#8 : Byte)).length ∧ [0#8].length < 2 ^ 61 :=
  ⟨by rw [List.length_replicate], by decide⟩

end Sys2Proof.Tests
end

section
/-! PROOF. Facts the statements about the machine's state share: what the two decoders answer, when a meaning answers a next
state, and which elements of the state an instruction reaches. -/

namespace Sys2Proof.Machine

variable {s s' : State} {i : Instr} {c : Command}

/-! ### The decoders -/

/-- R77: the legal commands, each with what its code says. -/
theorem decodeCommand_ok_cases (h : decodeCommand c = .ok i) :
    (i = .init ∧ c.op = 0x10#8) ∨
    (i = .wrblk (opIndex c.op) c.data ∧ opMajor c.op = 0x2#4) ∨
    (i = .next ∧ c.op = 0x30#8) ∨
    (i = .rddig (c.op.extractLsb' 0 3) ∧ c.op.extractLsb' 3 5 = 0b01000#5) ∨
    (i = .rdstat ∧ c.op = 0x50#8) := by
  unfold decodeCommand at h
  split at h
  · next ho => exact .inl ⟨(Except.ok.inj h).symm, ho⟩
  split at h
  · next ho => exact .inr (.inl ⟨(Except.ok.inj h).symm, ho⟩)
  split at h
  · next ho => exact .inr (.inr (.inl ⟨(Except.ok.inj h).symm, ho⟩))
  split at h
  · next ho => exact .inr (.inr (.inr (.inl ⟨(Except.ok.inj h).symm, ho⟩)))
  split at h
  · next ho => exact .inr (.inr (.inr (.inr ⟨(Except.ok.inj h).symm, ho⟩)))
  · cases h

theorem decodeCommand_isCommand (h : decodeCommand c = .ok i) : i.isCommand = true := by
  rcases decodeCommand_ok_cases h with ⟨rfl, _⟩ | ⟨rfl, _⟩ | ⟨rfl, _⟩ | ⟨rfl, _⟩ | ⟨rfl, _⟩ <;> rfl

theorem decodeCommand_init (h : decodeCommand c = .ok .init) : c.op = 0x10#8 := by
  simpa using decodeCommand_ok_cases h

theorem decodeCommand_wrblk {k : BitVec 4} {v : Word} (h : decodeCommand c = .ok (.wrblk k v)) : opMajor c.op = 0x2#4 := by
  have hc := decodeCommand_ok_cases h
  simp only [reduceCtorEq, false_and, or_false, false_or] at hc
  exact hc.2

/-- R145: the code 0x50 is RDSTAT, whatever DATA is. -/
theorem decodeCommand_poll (h : c.op = 0x50#8) : decodeCommand c = .ok .rdstat := by
  simp [decodeCommand, opMajor, h]

/-- R73: while BUSY only a poll is accepted. -/
theorem cmdReady_busy (hb : s.phase ≠ Phase.idle) (op : BitVec 8) : cmdReady false s.phase op = true ↔ op = 0x50#8 := by
  simp [cmdReady, hb]

theorem decodeSeq_isCommand (h : decodeSeq s.seq = .ok i) : i.isCommand = false := by
  rcases decodeSeq_ok_cases h with ⟨rfl, _⟩ | ⟨rfl, _⟩ | ⟨rfl, _⟩ | ⟨rfl, _⟩ | ⟨rfl, _⟩ <;> rfl

theorem seqDefined_of_ok {q : BitVec 10} (h : decodeSeq q = .ok i) : seqDefined q = true := by
  simp only [seqDefined, h]

theorem seqDefined_of_idle (hp : s.phase = Phase.idle) (ht : s.t = 0#7) : seqDefined s.seq = true := by
  simp only [seqDefined, decodeSeq_idle hp ht]

/-- R37 (a): the five phases. -/
theorem PhaseLegal.cases (h : PhaseLegal s) :
    s.phase = Phase.idle ∨ s.phase = Phase.sched ∨ s.phase = Phase.loadv ∨ s.phase = Phase.round ∨ s.phase = Phase.fold := by
  have five : ∀ p : Phase, p.toNat ≤ 4 → p = Phase.idle ∨ p = Phase.sched ∨ p = Phase.loadv ∨ p = Phase.round ∨
    p = Phase.fold := by decide
  exact five s.phase h

/-- R80: a BUSY engine whose SEQ meets R37 (a) and (b) has an enabled micro-step. -/
theorem exists_microStep (hp : PhaseLegal s) (hi : IndexLegal s) (hb : s.phase ≠ Phase.idle) :
    ∃ i, decodeSeq s.seq = .ok i := by
  obtain ⟨h79, h0⟩ := hi
  simp only [decodeSeq, State.seq, seqPhase_append, seqIndex_append, wcopyRange, wexpRange, roundRange]
  rcases hp.cases with h | h | h | h | h
  · exact absurd h hb
  · rcases Nat.lt_or_ge 15 s.t.toNat with ht | ht
    · exact ⟨.wexp s.t, by simp [h, h79, Nat.not_le.mpr ht, Nat.succ_le_of_lt ht]⟩
    · exact ⟨.wcopy s.t, by simp [h, ht]⟩
  · exact ⟨.loadv, by simp [h, h0]⟩
  · exact ⟨.round s.t, by simp [h, h79]⟩
  · exact ⟨.fold, by simp [h, h0]⟩

/-- R37, R80: where (a) and (b) hold, SEQ has one of its 163 defined values. -/
theorem seqDefined_of_legal (hp : PhaseLegal s) (hi : IndexLegal s) : seqDefined s.seq = true := by
  by_cases hb : s.phase = Phase.idle
  · exact seqDefined_of_idle hb (hi.2 (.inl hb))
  · obtain ⟨i, h⟩ := exists_microStep hp hi hb
    exact seqDefined_of_ok h

/-! ### When a meaning answers a next state -/

theorem whenIdle_total (s : State) (effect : State → State) : ∃ s', whenIdle s effect = .next s' := by
  by_cases hp : s.phase = Phase.idle
  · exact ⟨_, whenIdle_of_idle hp effect⟩
  · exact ⟨_, whenIdle_of_busy hp effect⟩

/-- R71: a command is accepted whole or held; its meaning never stops. -/
theorem exec_command_total (h : i.isCommand = true) (s : State) : ∃ s', exec i s = .next s' := by
  cases i with
  | init => simpa only [exec, execInit] using whenIdle_total s _
  | wrblk k v => simpa only [exec, execWrblk] using whenIdle_total s _
  | next => simpa only [exec, execNext] using whenIdle_total s _
  | rddig k => simpa only [exec, execRddig] using whenIdle_total s _
  | rdstat => exact ⟨_, rfl⟩
  | wcopy t => cases h
  | wexp t => cases h
  | loadv => cases h
  | round t => cases h
  | fold => cases h

/-- The micro-step that SEQ selects runs. -/
theorem exec_selected_total (h : decodeSeq s.seq = .ok i) : ∃ s', exec i s = .next s' := by
  rcases decodeSeq_ok_cases h with ⟨rfl, hp, ht⟩ | ⟨rfl, hp, h16, h79⟩ | ⟨rfl, hp, ht⟩ | ⟨rfl, hp, ht⟩ | ⟨rfl, hp, ht⟩
  · simp [exec, execWcopy, wcopyRange, whenSelected, hp, ht]
  · simp [exec, execWexp, wexpRange, whenSelected, hp, h16, h79]
  · simp [exec, execLoadv, whenSelected, hp, ht]
  · simp [exec, execRound, roundRange, whenSelected, hp, ht]
  · simp [exec, execFold, whenSelected, hp, ht]

/-! ### Which elements an instruction reaches -/

/-- Settles O27: the inversion lemma of each instruction, and a write to one element keeps the others. -/
theorem everyInstructionKeepsWhatItDoesNotWrite : Obligations.EveryInstructionKeepsWhatItDoesNotWrite := by
  unfold Obligations.EveryInstructionKeepsWhatItDoesNotWrite
  intro i s s' h
  cases i with
  | init => rcases exec_init_cases h with ⟨_, rfl⟩ | ⟨_, rfl⟩ <;> simp
  | wrblk k v =>
    rcases exec_wrblk_cases h with ⟨_, rfl⟩ | ⟨_, rfl⟩
    · have keeps : ∀ j, j ≠ k.toNat → elem (setElem s.M k.toNat v) j = elem s.M j :=
        fun j hj => elem_setElem_of_ne s.M (Ne.symm hj) v
      simp_all
    · simp
  | next => rcases exec_next_cases h with ⟨_, _, rfl⟩ | ⟨_, _, rfl⟩ | ⟨_, rfl⟩ <;> simp
  | rddig k => rcases exec_rddig_cases h with ⟨_, _, rfl⟩ | ⟨_, _, rfl⟩ | ⟨_, rfl⟩ <;> simp
  | rdstat =>
    obtain rfl := exec_rdstat_cases h
    simp
  | wcopy t =>
    obtain ⟨_, _, _, rfl⟩ := exec_wcopy_cases h
    have keeps : ∀ j, j ≠ t.toNat → elem (setElem s.W t.toNat (elem s.M t.toNat)) j = elem s.W j :=
      fun j hj => elem_setElem_of_ne s.W (Ne.symm hj) _
    simp_all [Instr.isCommand]
  | wexp t =>
    have keeps : ∀ j, j ≠ t.toNat → elem (setElem s.W t.toNat (expandWord s.W t.toNat)) j = elem s.W j :=
      fun j hj => elem_setElem_of_ne s.W (Ne.symm hj) _
    obtain ⟨_, _, _, _, ⟨_, rfl⟩ | ⟨_, rfl⟩⟩ := exec_wexp_cases h <;> simp_all [Instr.isCommand]
  | loadv =>
    obtain ⟨_, _, rfl⟩ := exec_loadv_cases h
    simp [Instr.isCommand]
  | round t => obtain ⟨_, _, _, ⟨_, rfl⟩ | ⟨_, rfl⟩⟩ := exec_round_cases h <;> simp [Instr.isCommand]
  | fold =>
    obtain ⟨_, _, rfl⟩ := exec_fold_cases h
    simp [Instr.isCommand]
end Sys2Proof.Machine
end

section
/-! PROOF. What every step keeps: the invariants of spec/10_state.md R37, ERR and HINIT once set, and H and M but for the
instructions that write them; and that a step from a legal state answers a next state. -/

namespace Sys2Proof.Machine

variable {s s' : State} {i : Instr}

/-! ### The parts of R37 that NEXT and the micro-steps rest on -/

/-- R37 (a), (b), (c), (f): the invariants but for those of the error state. -/
def ControlLegal (s : State) : Prop := PhaseLegal s ∧ IndexLegal s ∧ FlagsLegal s

theorem legal_iff : Legal s ↔ ControlLegal s ∧ ErrorLegal s := by simp only [Legal, ControlLegal, and_assoc]

theorem ControlLegal.seqDefined (h : ControlLegal s) : seqDefined s.seq = true := seqDefined_of_legal h.1 h.2.1

theorem ControlLegal.exists_microStep (h : ControlLegal s) (hb : s.phase ≠ Phase.idle) : ∃ i, decodeSeq s.seq = .ok i :=
  Machine.exists_microStep h.1 h.2.1 hb

theorem controlLegal_idle (hp : s.phase = Phase.idle) (ht : s.t = 0#7) (hf : s.DVALID = true → s.HINIT = true) :
    ControlLegal s := by
  simpa [ControlLegal, PhaseLegal, IndexLegal, FlagsLegal, hp, ht] using hf

theorem controlLegal_busy (hp : PhaseLegal s) (hi : IndexLegal s) (hH : s.HINIT = true) (hD : s.DVALID = false) :
    ControlLegal s := by
  simp [ControlLegal, FlagsLegal, hp, hi, hH, hD]

/-- R115, R127: the successor of an index below 79. -/
theorem index_succ {t : BitVec 7} (h : t.toNat < 79) : (t + 1#7).toNat = t.toNat + 1 := by
  rw [BitVec.toNat_add]
  simp only [BitVec.toNat_ofNat]
  omega

theorem index_lt {t : BitVec 7} (h : t.toNat ≤ 79) (hne : t ≠ 79#7) : t.toNat < 79 := by
  refine Nat.lt_of_le_of_ne h fun h79 => hne ?_
  exact BitVec.eq_of_toNat_eq h79

theorem phaseLegal_of (h : s.phase = Phase.sched ∨ s.phase = Phase.loadv ∨ s.phase = Phase.round ∨ s.phase = Phase.fold) :
    PhaseLegal s := by
  unfold PhaseLegal
  rcases h with h | h | h | h <;> simp [h]

theorem indexLegal_zero (h : s.t = 0#7) : IndexLegal s := by simp [IndexLegal, h]

/-- R37 (b) in SCHED and ROUND. -/
theorem indexLegal_of_walk (hp : s.phase = Phase.sched ∨ s.phase = Phase.round) (h : s.t.toNat ≤ 79) : IndexLegal s := by
  refine ⟨h, fun hq => ?_⟩
  rcases hp with hp | hp <;> simp [hp] at hq

theorem exec_keeps_control (h : exec i s = .next s') (hl : ControlLegal s) : ControlLegal s' := by
  obtain ⟨hpl, hil, hbusy, hdv⟩ := hl
  have unchanged : ControlLegal s := ⟨hpl, hil, hbusy, hdv⟩
  cases i with
  | init =>
    rcases exec_init_cases h with ⟨hp, rfl⟩ | ⟨_, rfl⟩
    · exact controlLegal_idle hp (hil.2 (.inl hp)) fun _ => rfl
    · exact unchanged
  | wrblk k v => rcases exec_wrblk_cases h with ⟨_, rfl⟩ | ⟨_, rfl⟩ <;> exact unchanged
  | next =>
    rcases exec_next_cases h with ⟨_, hH, rfl⟩ | ⟨_, _, rfl⟩ | ⟨_, rfl⟩
    · exact controlLegal_busy (phaseLegal_of (.inl rfl)) (indexLegal_zero rfl) hH rfl
    · exact unchanged
    · exact unchanged
  | rddig k => rcases exec_rddig_cases h with ⟨_, _, rfl⟩ | ⟨_, _, rfl⟩ | ⟨_, rfl⟩ <;> exact unchanged
  | rdstat =>
    obtain rfl := exec_rdstat_cases h
    exact unchanged
  | wcopy t =>
    obtain ⟨hp, rfl, ht, rfl⟩ := exec_wcopy_cases h
    obtain ⟨hH, hD⟩ := hbusy (by simp [hp])
    have hs : (s.t + 1#7).toNat ≤ 79 := by rw [index_succ (by omega)]; omega
    exact controlLegal_busy (phaseLegal_of (.inl rfl)) (indexLegal_of_walk (.inl rfl) hs) hH hD
  | wexp t =>
    obtain ⟨hp, rfl, _, ht, ⟨_, rfl⟩ | ⟨hne, rfl⟩⟩ := exec_wexp_cases h <;> obtain ⟨hH, hD⟩ := hbusy (by simp [hp])
    · exact controlLegal_busy (phaseLegal_of (.inr (.inl rfl))) (indexLegal_zero rfl) hH hD
    · have hs : (s.t + 1#7).toNat ≤ 79 := by rw [index_succ (index_lt ht hne)]; exact index_lt ht hne
      exact controlLegal_busy (phaseLegal_of (.inl rfl)) (indexLegal_of_walk (.inl rfl) hs) hH hD
  | loadv =>
    obtain ⟨hp, _, rfl⟩ := exec_loadv_cases h
    obtain ⟨hH, hD⟩ := hbusy (by simp [hp])
    exact controlLegal_busy (phaseLegal_of (.inr (.inr (.inl rfl)))) (indexLegal_zero rfl) hH hD
  | round t =>
    obtain ⟨hp, rfl, ht, ⟨_, rfl⟩ | ⟨hne, rfl⟩⟩ := exec_round_cases h <;> obtain ⟨hH, hD⟩ := hbusy (by simp [hp])
    · exact controlLegal_busy (phaseLegal_of (.inr (.inr (.inr rfl)))) (indexLegal_zero rfl) hH hD
    · have hs : (s.t + 1#7).toNat ≤ 79 := by rw [index_succ (index_lt ht hne)]; exact index_lt ht hne
      exact controlLegal_busy (phaseLegal_of (.inr (.inr (.inl rfl)))) (indexLegal_of_walk (.inr rfl) hs) hH hD
  | fold =>
    obtain ⟨hp, _, rfl⟩ := exec_fold_cases h
    exact controlLegal_idle rfl rfl fun _ => (hbusy (by simp [hp])).1

/-! ### The error state and HINIT -/

/-- R184: what an instruction does to the error state: nothing, or a protocol error. -/
theorem exec_error_cases (h : exec i s = .next s') :
    (s'.ERR = s.ERR ∧ s'.ECODE = s.ECODE) ∨
    ∃ c, s'.ERR = (s.raiseProtocolError c).ERR ∧ s'.ECODE = (s.raiseProtocolError c).ECODE := by
  by_cases hn : i = .next
  · subst hn
    rcases exec_next_cases h with ⟨_, _, rfl⟩ | ⟨_, _, rfl⟩ | ⟨_, rfl⟩
    · exact .inl ⟨rfl, rfl⟩
    · exact .inr ⟨_, rfl, rfl⟩
    · exact .inl ⟨rfl, rfl⟩
  by_cases hr : ∃ k, i = .rddig k
  · obtain ⟨k, rfl⟩ := hr
    rcases exec_rddig_cases h with ⟨_, _, rfl⟩ | ⟨_, _, rfl⟩ | ⟨_, rfl⟩
    · exact .inl ⟨rfl, rfl⟩
    · exact .inr ⟨_, rfl, rfl⟩
    · exact .inl ⟨rfl, rfl⟩
  · obtain ⟨_, _, _, _, _, _, _, _, _, herr, _⟩ := everyInstructionKeepsWhatItDoesNotWrite i s s' h
    exact .inl (herr hn fun k hk => hr ⟨k, hk⟩)

theorem raiseProtocolError_keeps_errorLegal (h : ErrorLegal s) (c : Cause) : ErrorLegal (s.raiseProtocolError c) := by
  cases he : s.ERR with
  | true => simpa [ErrorLegal, he] using h
  | false => simp [ErrorLegal, he, causeCode_ne_zero, causeCode_le_three]

theorem exec_keeps_errorLegal (h : exec i s = .next s') (hl : ErrorLegal s) : ErrorLegal s' := by
  unfold ErrorLegal
  rcases exec_error_cases h with ⟨he, hc⟩ | ⟨c, he, hc⟩ <;> rw [he, hc]
  · exact hl
  · exact raiseProtocolError_keeps_errorLegal hl c

/-- R29, R31: ERR = 1 stays 1 with its cause, and HINIT = 1 stays 1. -/
def Sticky (s s' : State) : Prop :=
  (s.ERR = true → s'.ERR = true ∧ s'.ECODE = s.ECODE) ∧ (s.HINIT = true → s'.HINIT = true)

theorem exec_sticky (h : exec i s = .next s') : Sticky s s' := by
  constructor
  · intro herr
    rcases exec_error_cases h with ⟨he, hc⟩ | ⟨c, he, hc⟩
    · exact ⟨he.trans herr, hc⟩
    · exact ⟨he, hc.trans (raiseProtocolError_keeps_first c herr)⟩
  · intro hH
    by_cases hi : i = .init
    · subst hi
      rcases exec_init_cases h with ⟨_, rfl⟩ | ⟨_, rfl⟩
      · rfl
      · exact hH
    · obtain ⟨_, _, _, _, _, _, _, hinit, _⟩ := everyInstructionKeepsWhatItDoesNotWrite i s s' h
      exact (hinit hi).trans hH

/-! ### The writers of H and M -/

theorem exec_changes_H (h : exec i s = .next s') (hne : s'.H ≠ s.H) :
    (i = .init ∧ s.phase = Phase.idle) ∨ (i = .fold ∧ s.phase = Phase.fold) := by
  by_cases hi : i = .init
  · subst hi
    rcases exec_init_cases h with ⟨hp, _⟩ | ⟨_, rfl⟩
    · exact .inl ⟨rfl, hp⟩
    · exact absurd rfl hne
  by_cases hf : i = .fold
  · subst hf
    exact .inr ⟨rfl, (exec_fold_cases h).1⟩
  · obtain ⟨hH, _⟩ := everyInstructionKeepsWhatItDoesNotWrite i s s' h
    exact absurd (hH hi hf) hne

theorem exec_changes_M (h : exec i s = .next s') (hne : s'.M ≠ s.M) : (∃ k v, i = .wrblk k v) ∧ s.phase = Phase.idle := by
  by_cases hw : ∃ k v, i = .wrblk k v
  · refine ⟨hw, ?_⟩
    obtain ⟨k, v, rfl⟩ := hw
    rcases exec_wrblk_cases h with ⟨hp, _⟩ | ⟨_, rfl⟩
    · exact hp
    · exact absurd rfl hne
  · obtain ⟨_, _, hM, _⟩ := everyInstructionKeepsWhatItDoesNotWrite i s s' h
    exact absurd (hM fun k v hi => hw ⟨k, v, hi⟩) hne

/-! ### The step -/

/-- What a step that is no reset makes of the state `u` it starts from: an instruction, an illegal command, or an edge at
which nothing happens. -/
def Acts (u s' : State) : Prop := (∃ i, exec i u = .next s') ∨ illegalCommand u = .next s' ∨ s' = u.respond none

theorem Acts.keeps_control (h : Acts s s') (hl : ControlLegal s) : ControlLegal s' := by
  rcases h with ⟨i, h⟩ | h | rfl
  · exact exec_keeps_control h hl
  · rcases illegalCommand_cases h with ⟨_, rfl⟩ | ⟨_, rfl⟩ <;> exact hl
  · exact hl

theorem Acts.keeps_errorLegal (h : Acts s s') (hl : ErrorLegal s) : ErrorLegal s' := by
  rcases h with ⟨i, h⟩ | h | rfl
  · exact exec_keeps_errorLegal h hl
  · rcases illegalCommand_cases h with ⟨_, rfl⟩ | ⟨_, rfl⟩
    · exact raiseProtocolError_keeps_errorLegal hl _
    · exact hl
  · exact hl

theorem Acts.sticky (h : Acts s s') : Sticky s s' := by
  rcases h with ⟨i, h⟩ | h | rfl
  · exact exec_sticky h
  · rcases illegalCommand_cases h with ⟨_, rfl⟩ | ⟨_, rfl⟩
    · exact ⟨fun he => ⟨rfl, raiseProtocolError_keeps_first _ he⟩, id⟩
    · exact ⟨fun he => ⟨he, rfl⟩, id⟩
  · exact ⟨fun he => ⟨he, rfl⟩, id⟩

/-- A step is a reset event or acts on the state but for what it takes off `cmds` and `turns`. -/
theorem step_acts (h : step s = .next s') :
    (∃ n ts, s.turns = .reset n :: ts ∧ s' = resetEvent { s with turns := ts } n) ∨
    ∃ cs ts, Acts { s with cmds := cs, turns := ts } s' := by
  rcases step_cases h with hr | ⟨_, ts, _, ⟨c, rest, i, _, _, _, h⟩ | ⟨c, rest, e, _, _, _, h⟩ | ⟨i, _, h⟩ | ⟨_, _, h⟩⟩
  · exact .inl hr
  · exact .inr ⟨rest, ts, .inl ⟨i, h⟩⟩
  · exact .inr ⟨rest, ts, .inr (.inl h)⟩
  · exact .inr ⟨s.cmds, ts, .inl ⟨i, h⟩⟩
  · exact .inr ⟨s.cmds, ts, .inr (.inr h)⟩

/-- R36, R37: every reset state meets the invariants. -/
theorem IsResetState.legal (h : IsResetState s) : Legal s := by
  obtain ⟨hp, ht, hH, hD, hE, hC⟩ := h
  simp [Legal, PhaseLegal, IndexLegal, FlagsLegal, ErrorLegal, hp, ht, hH, hD, hE, hC]

theorem isResetState_resetEvent (s : State) (n : Nat) : IsResetState (resetEvent s n) := ⟨rfl, rfl, rfl, rfl, rfl, rfl⟩

theorem step_keeps_control (h : step s = .next s') (hl : ControlLegal s) : ControlLegal s' := by
  rcases step_acts h with ⟨n, ts, _, rfl⟩ | ⟨cs, ts, h⟩
  · exact (legal_iff.mp (isResetState_resetEvent _ n).legal).1
  · exact h.keeps_control hl

theorem step_keeps_legal (h : step s = .next s') (hl : Legal s) : Legal s' := by
  obtain ⟨hc, he⟩ := legal_iff.mp hl
  rcases step_acts h with ⟨n, ts, _, rfl⟩ | ⟨cs, ts, h⟩
  · exact (isResetState_resetEvent _ n).legal
  · exact legal_iff.mpr ⟨h.keeps_control hc, h.keeps_errorLegal he⟩

/-- Settles O31: a reset event leads to a reset state, and every other step keeps the control part and the error part of R37
each on its own. -/
theorem everyStepKeepsTheLegalStates : Obligations.EveryStepKeepsTheLegalStates := by
  unfold Obligations.EveryStepKeepsTheLegalStates
  exact ⟨fun _ h => h.legal, fun _ _ hl h => step_keeps_legal h hl⟩

/-- Settles O29: a step that is no reset is an instruction, an illegal command or an idle edge, and each of them is
sticky. -/
theorem errorAndHinitAreStickyUntilReset : Obligations.ErrorAndHinitAreStickyUntilReset := by
  unfold Obligations.ErrorAndHinitAreStickyUntilReset
  intro s s' hn h
  rcases step_acts h with ⟨n, ts, hr, _⟩ | ⟨cs, ts, h⟩
  · exact absurd hr (hn n ts)
  · exact h.sticky

/-- Settles O30: only the meanings of INIT, FOLD and WRBLK write H and M, and the decoder gives the code of the command. -/
theorem onlyInitFoldAndWrblkReachHAndM : Obligations.OnlyInitFoldAndWrblkReachHAndM := by
  unfold Obligations.OnlyInitFoldAndWrblkReachHAndM
  intro s s' hn h
  rcases step_cases h with ⟨n, ts, hr, _⟩ |
    ⟨_, ts, _, ⟨c, rest, i, hc, _, hd, h⟩ | ⟨c, rest, e, _, _, _, h⟩ | ⟨i, hd, h⟩ | ⟨_, _, rfl⟩⟩
  · exact absurd hr (hn n ts)
  · constructor
    · intro hne
      rcases exec_changes_H h hne with ⟨rfl, hp⟩ | ⟨_, hp⟩
      · exact .inl ⟨hp, c, rest, hc, decodeCommand_init hd⟩
      · exact .inr hp
    · intro hne
      obtain ⟨⟨k, v, rfl⟩, hp⟩ := exec_changes_M h hne
      exact ⟨hp, c, rest, hc, decodeCommand_wrblk hd⟩
  · rcases illegalCommand_cases h with ⟨_, rfl⟩ | ⟨_, rfl⟩ <;>
      exact ⟨fun hne => absurd rfl hne, fun hne => absurd rfl hne⟩
  · have hcmd := decodeSeq_isCommand hd
    constructor
    · intro hne
      rcases exec_changes_H h hne with ⟨rfl, _⟩ | ⟨_, hp⟩
      · cases hcmd
      · exact .inr hp
    · intro hne
      obtain ⟨⟨k, v, rfl⟩, _⟩ := exec_changes_M h hne
      cases hcmd
  · exact ⟨fun hne => absurd rfl hne, fun hne => absurd rfl hne⟩

/-- A turn that is no reset selects something that answers a next state wherever SEQ is defined. -/
theorem turnSelects_answers {u : State} {q : Selection} (h : TurnSelects u q) (hd : seqDefined u.seq = true)
    (hq : select s = q) : ∃ s', step s = .next s' := by
  unfold step
  rw [hq]
  rcases h with ⟨c, rest, i, _, _, hc, rfl⟩ | ⟨c, rest, e, _, _, _, rfl⟩ | ⟨i, hi, rfl⟩ | ⟨_, _, rfl⟩ | ⟨hu, _⟩
  · exact exec_command_total (decodeCommand_isCommand hc) _
  · exact whenIdle_total _ _
  · exact exec_selected_total hi
  · exact ⟨_, rfl⟩
  · rw [hd] at hu
    cases hu

/-- Where SEQ is defined a step answers a next state. -/
theorem step_total (hd : seqDefined s.seq = true) : ∃ s', step s = .next s' := by
  rcases select_cases s with ⟨n, ts, _, hq⟩ | ⟨_, hq⟩
  · exact ⟨_, by rw [step, hq]⟩
  · exact turnSelects_answers hq hd rfl

/-- Settles O33: a legal state has one of the defined values of SEQ. -/
theorem legalStatesNeverStop : Obligations.LegalStatesNeverStop := by
  unfold Obligations.LegalStatesNeverStop
  intro s hl
  exact step_total (legal_iff.mp hl).1.seqDefined

/-- Settles O32: State.reset has the control state of a reset, and an idle engine tracks nothing. -/
theorem resetStateIsLegal : Obligations.ResetStateIsLegal := by
  unfold Obligations.ResetStateIsLegal
  have hr : IsResetState State.reset := ⟨rfl, rfl, rfl, rfl, rfl, rfl⟩
  exact ⟨hr, hr.legal, by simp [TracksCompress, State.reset]⟩

end Sys2Proof.Machine
end

section
/-! PROOF. The status register (spec/10_state.md R32), the reset event, and what one step is when the turn is known. -/

namespace Sys2Proof.Machine

variable {s s' : State} {i : Instr}

/-! ### The status register -/

/-- R32: STATUS bit by bit. -/
theorem status_getLsbD (s : State) (j : Nat) (hj : j < 64) :
    s.status.getLsbD j = if j = 0 then s.busy else if j = 1 then s.HINIT else if j = 2 then s.DVALID
      else if j = 3 then s.ERR else s.ECODE.getLsbD (j - 4) := by
  simp only [State.status, BitVec.getLsbD_setWidth, BitVec.getLsbD_append, BitVec.getLsbD_ofBool, hj, decide_true,
    Bool.true_and]
  rcases j with _ | _ | _ | _ | j <;> simp

theorem status_bit_busy (s : State) : s.status.getLsbD 0 = s.busy := status_getLsbD s 0 (by decide)

theorem status_bit_HINIT (s : State) : s.status.getLsbD 1 = s.HINIT := status_getLsbD s 1 (by decide)

theorem status_bit_DVALID (s : State) : s.status.getLsbD 2 = s.DVALID := status_getLsbD s 2 (by decide)

theorem status_bit_ERR (s : State) : s.status.getLsbD 3 = s.ERR := status_getLsbD s 3 (by decide)

/-- R32: from bit 4 on stands ECODE, and zeros above it. -/
theorem status_getLsbD_add_four (s : State) (j : Nat) (hj : 4 + j < 64) : s.status.getLsbD (4 + j) = s.ECODE.getLsbD j := by
  rw [status_getLsbD s _ hj, if_neg (by omega), if_neg (by omega), if_neg (by omega), if_neg (by omega),
    Nat.add_sub_cancel_left]

theorem status_field_ECODE (s : State) : s.status.extractLsb' 4 4 = s.ECODE := by
  ext j hj
  rw [BitVec.getElem_extractLsb', status_getLsbD_add_four s j (by omega), BitVec.getLsbD_eq_getElem hj]

theorem status_upper_zero (s : State) : s.status.extractLsb' 8 56 = 0#56 := by
  ext j hj
  rw [BitVec.getElem_extractLsb', show 8 + j = 4 + (4 + j) by omega, status_getLsbD_add_four s _ (by omega)]
  simp

@[simp] theorem busy_eq_true_iff : s.busy = true ↔ s.phase ≠ Phase.idle := by simp [State.busy]

/-- Settles O19, field by field. -/
theorem statusFieldsAreViews : Obligations.StatusFieldsAreViews := by
  unfold Obligations.StatusFieldsAreViews
  constructor
  · intro s
    have hb : s.status.getLsbD 0 = true ↔ s.phase ≠ Phase.idle := by rw [status_bit_busy, busy_eq_true_iff]
    exact ⟨hb, status_bit_HINIT s, status_bit_DVALID s, status_bit_ERR s, status_field_ECODE s, status_upper_zero s⟩
  · intro s ⟨hp, _, hH, hD, hE, hC⟩
    simp [State.status, State.busy, hp, hH, hD, hE, hC]

/-- R37 (c), (f): the four values of BUSY, HINIT and DVALID in a legal state. -/
theorem FlagsLegal.cases (h : FlagsLegal s) :
    (s.busy = false ∧ s.HINIT = false ∧ s.DVALID = false) ∨ (s.busy = false ∧ s.HINIT = true ∧ s.DVALID = false) ∨
    (s.busy = true ∧ s.HINIT = true ∧ s.DVALID = false) ∨ (s.busy = false ∧ s.HINIT = true ∧ s.DVALID = true) := by
  obtain ⟨hbusy, hdv⟩ := h
  by_cases hp : s.phase = Phase.idle
  · have hB : s.busy = false := by simp [State.busy, hp]
    cases hH : s.HINIT with
    | false =>
      have hD : s.DVALID = false := by simpa [hH] using hdv
      exact .inl ⟨hB, rfl, hD⟩
    | true =>
      cases s.DVALID with
      | false => exact .inr (.inl ⟨hB, rfl, rfl⟩)
      | true => exact .inr (.inr (.inr ⟨hB, rfl, rfl⟩))
  · obtain ⟨hH, hD⟩ := hbusy hp
    exact .inr (.inr (.inl ⟨busy_eq_true_iff.mpr hp, hH, hD⟩))

/-- R37 (d), (e): the four values of ERR and ECODE in a legal state. -/
theorem ErrorLegal.cases (h : ErrorLegal s) :
    (s.ERR = false ∧ s.ECODE = 0#4) ∨ (s.ERR = true ∧ s.ECODE = 1#4) ∨ (s.ERR = true ∧ s.ECODE = 2#4) ∨
    (s.ERR = true ∧ s.ECODE = 3#4) := by
  have codes : ∀ c : BitVec 4, c.toNat ≤ 3 → c = 0#4 ∨ c = 1#4 ∨ c = 2#4 ∨ c = 3#4 := by decide
  obtain ⟨hz, hle⟩ := h
  have nonzero : s.ECODE ≠ 0#4 → s.ERR = true := fun hc => by
    rw [← Bool.not_eq_false, hz]
    exact hc
  rcases codes s.ECODE hle with hc | hc | hc | hc
  · exact .inl ⟨hz.mpr hc, hc⟩
  · exact .inr (.inl ⟨nonzero (by simp [hc]), hc⟩)
  · exact .inr (.inr (.inl ⟨nonzero (by simp [hc]), hc⟩))
  · exact .inr (.inr (.inr ⟨nonzero (by simp [hc]), hc⟩))

/-- Settles O34: four values of the flags, four of the error state. -/
theorem statusTakesSixteenValues : Obligations.StatusTakesSixteenValues := by
  unfold Obligations.StatusTakesSixteenValues
  intro s ⟨_, _, hf, he⟩
  unfold State.status
  rcases hf.cases with ⟨hB, hH, hD⟩ | ⟨hB, hH, hD⟩ | ⟨hB, hH, hD⟩ | ⟨hB, hH, hD⟩ <;> rw [hB, hH, hD] <;>
    rcases he.cases with ⟨hE, hC⟩ | ⟨hE, hC⟩ | ⟨hE, hC⟩ | ⟨hE, hC⟩ <;> rw [hE, hC] <;> decide

/-! ### The reset event -/

/-- U1: the free words of one array are draws in a row. -/
theorem elem_freeWords (first n : Nat) {j : Nat} (h : j < n) : elem (freeWords first n) j = Config.resetWord (first + j) :=
  elem_ofFn _ h

theorem step_of_reset {n : Nat} {ts : List Turn} (h : s.turns = .reset n :: ts) :
    step s = .next (resetEvent { s with turns := ts } n) := by
  rw [step, select, h]

/-- Settles O11: the step is the reset event, whose free words are draws in a row. -/
theorem resetEventTakesPrecedence : Obligations.ResetEventTakesPrecedence := by
  unfold Obligations.ResetEventTakesPrecedence
  intro s n ts h
  refine ⟨_, step_of_reset h, isResetState_resetEvent _ n, rfl, rfl, rfl, rfl, ?_, ?_, ?_, ?_⟩ <;>
    exact fun j hj => elem_freeWords _ _ hj

/-! ### One step when the turn is known -/

/-- D27, R73: the micro-step of SEQ goes first: it is the engine's turn, or the host's command is held or absent. -/
def EngineFirst (s : State) : Prop :=
  EngineTurn s ∨ (HostTurn s ∧ ∀ c, s.cmds.head? = some c → cmdReady false s.phase c.op = false)

theorem select_of_engineFirst (h : EngineFirst s) (hi : decodeSeq s.seq = .ok i) :
    select s = .run i { s with turns := s.turns.tail } := by
  rcases h with h | ⟨h, hheld⟩
  · rw [select_of_engine h]
    exact selectEngine_of_ok hi
  · rw [select_of_host h, selectHost_of_held (s := { s with turns := s.turns.tail }) (seqDefined_of_ok hi) hheld]
    exact selectMicroStep_of_ok hi

theorem takesMicroStep_of_run {u : State} (h : select s = .run i u) : takesMicroStep s = !i.isCommand := by
  rw [takesMicroStep, h]

/-- Settles O7: the engine goes first there. -/
theorem stepRunsTheSelectedMicroStep : Obligations.StepRunsTheSelectedMicroStep := by
  unfold Obligations.StepRunsTheSelectedMicroStep
  intro s i h hi
  exact step_of_run (select_of_engineFirst h hi)

/-- Where SEQ is undefined the host's turn stops, and so does the engine's. -/
theorem selectHost_of_undefined (h : seqDefined s.seq = false) : selectHost s = .stuck := by
  simp [selectHost, h]

theorem selectEngine_of_not_ok (h : ∀ i, decodeSeq s.seq ≠ .ok i) : selectEngine s = selectHost s := by
  rcases selectEngine_cases s with ⟨i, hi, _⟩ | ⟨_, hq⟩
  · exact absurd hi (h i)
  · exact hq

/-- Where no micro-step is enabled every turn but a reset looks at the offer. -/
theorem select_of_not_ok (hn : NoReset s) (h : ∀ i, decodeSeq s.seq ≠ .ok i) :
    select s = selectHost { s with turns := s.turns.tail } := by
  rcases turn_cases s with ⟨n, ts, ht⟩ | ht | ht
  · exact absurd ht (hn n ts)
  · exact select_of_host ht
  · rw [select_of_engine ht]
    exact selectEngine_of_not_ok h

/-- Settles O12: no micro-step is enabled, and looking at the offer stops. -/
theorem undefinedSequencerStopsTheMachine : Obligations.UndefinedSequencerStopsTheMachine := by
  unfold Obligations.UndefinedSequencerStopsTheMachine
  intro s hn hd
  have none_enabled : ∀ i, decodeSeq s.seq ≠ .ok i := fun i hi => by
    rw [seqDefined_of_ok hi] at hd
    cases hd
  rw [step, select_of_not_ok hn none_enabled, selectHost_of_undefined (s := { s with turns := s.turns.tail }) hd]

/-- Settles O8: no micro-step is enabled and nothing is offered, so every turn selects the idle edge. -/
theorem idleEdgeChangesNothing : Obligations.IdleEdgeChangesNothing := by
  unfold Obligations.IdleEdgeChangesNothing
  intro s hn hc hp ht
  have hi := decodeSeq_idle hp ht
  have none_offered : ∀ c, s.cmds.head? = some c → cmdReady false s.phase c.op = false := by simp [hc]
  have none_enabled : ∀ i, decodeSeq s.seq ≠ .ok i := fun i h => by cases hi.symm.trans h
  have hq : select s = .idle { s with turns := s.turns.tail } := by
    rw [select_of_not_ok hn none_enabled,
      selectHost_of_held (s := { s with turns := s.turns.tail }) (seqDefined_of_idle hp ht) none_offered, selectMicroStep,
      show decodeSeq (State.seq { s with turns := s.turns.tail }) = _ from hi]
  rw [step, hq]
  rfl

end Sys2Proof.Machine
end

section
/-! PROOF. Progress of a BUSY engine (spec/10_state.md R27, spec/70_reset_and_hazards.md R211): what the micro-step that SEQ
selects does whichever it is, what a step of a BUSY engine can be, and how many of them lead to IDLE. -/

namespace Sys2Proof.Machine

variable {s s' : State} {i : Instr}

/-! ### What every micro-step does -/

/-- What a micro-step leaves unchanged whichever it is, and how it goes on: one fewer is left, and the one that leads to IDLE
(FOLD) is the one that writes `H` and DVALID. -/
structure MicroStep (s s' : State) : Prop where
  left   : microStepsLeft s' + 1 = microStepsLeft s
  M      : s'.M = s.M
  HINIT  : s'.HINIT = s.HINIT
  ERR    : s'.ERR = s.ERR
  ECODE  : s'.ECODE = s.ECODE
  cmds   : s'.cmds = s.cmds
  turns  : s'.turns = s.turns
  rsp    : s'.rsp = none
  H      : s'.phase ≠ Phase.idle → s'.H = s.H
  DVALID : s'.phase = Phase.idle → s'.DVALID = true

theorem left_idle (hp : s.phase = Phase.idle) : microStepsLeft s = 0 := by simp [microStepsLeft, hp]

theorem left_sched (hp : s.phase = Phase.sched) : microStepsLeft s = 162 - s.t.toNat := by simp [microStepsLeft, hp]

theorem left_loadv (hp : s.phase = Phase.loadv) : microStepsLeft s = 82 := by simp [microStepsLeft, hp]

theorem left_round (hp : s.phase = Phase.round) : microStepsLeft s = 81 - s.t.toNat := by simp [microStepsLeft, hp]

theorem left_fold (hp : s.phase = Phase.fold) : microStepsLeft s = 1 := by simp [microStepsLeft, hp]

/-- R27: the count of micro-steps that SEQ leaves goes down by one. -/
theorem microStep_left (hi : decodeSeq s.seq = .ok i) (h : exec i s = .next s') :
    microStepsLeft s' + 1 = microStepsLeft s := by
  rcases decodeSeq_ok_cases hi with ⟨rfl, hp, ht⟩ | ⟨rfl, hp, _, ht⟩ | ⟨rfl, hp, _⟩ | ⟨rfl, hp, ht⟩ | ⟨rfl, hp, _⟩
  · obtain ⟨_, _, _, rfl⟩ := exec_wcopy_cases h
    have hsucc : (s.t + 1#7).toNat = s.t.toNat + 1 := index_succ (by omega)
    rw [left_sched hp, left_sched rfl, State.respond_t, State.setSeq_t, hsucc]
    omega
  · obtain ⟨_, _, _, _, ⟨h79, rfl⟩ | ⟨hne, rfl⟩⟩ := exec_wexp_cases h
    · rw [left_sched hp, left_loadv rfl, h79]
      rfl
    · rw [left_sched hp, left_sched rfl, State.respond_t, State.setSeq_t, index_succ (index_lt ht hne)]
      omega
  · obtain ⟨_, _, rfl⟩ := exec_loadv_cases h
    rw [left_loadv hp, left_round rfl]
    rfl
  · obtain ⟨_, _, _, ⟨h79, rfl⟩ | ⟨hne, rfl⟩⟩ := exec_round_cases h
    · rw [left_round hp, left_fold rfl, h79]
      rfl
    · rw [left_round hp, left_round rfl, State.respond_t, State.setSeq_t, index_succ (index_lt ht hne)]
      omega
  · obtain ⟨_, _, rfl⟩ := exec_fold_cases h
    rw [left_fold hp, left_idle rfl]

/-- R130: the only micro-step that leads to IDLE is FOLD; it writes `H` and sets DVALID. -/
theorem microStep_to_idle (hi : decodeSeq s.seq = .ok i) (h : exec i s = .next s') :
    (i = .fold ∧ s'.phase = Phase.idle ∧ s'.DVALID = true) ∨ (i ≠ .fold ∧ s'.phase ≠ Phase.idle) := by
  rcases decodeSeq_ok_cases hi with ⟨rfl, _⟩ | ⟨rfl, _⟩ | ⟨rfl, _⟩ | ⟨rfl, _⟩ | ⟨rfl, _⟩
  · obtain ⟨_, _, _, rfl⟩ := exec_wcopy_cases h
    exact .inr ⟨by simp, by simp⟩
  · obtain ⟨_, _, _, _, ⟨_, rfl⟩ | ⟨_, rfl⟩⟩ := exec_wexp_cases h <;> exact .inr ⟨by simp, by simp⟩
  · obtain ⟨_, _, rfl⟩ := exec_loadv_cases h
    exact .inr ⟨by simp, by simp⟩
  · obtain ⟨_, _, _, ⟨_, rfl⟩ | ⟨_, rfl⟩⟩ := exec_round_cases h <;> exact .inr ⟨by simp, by simp⟩
  · obtain ⟨_, _, rfl⟩ := exec_fold_cases h
    exact .inl ⟨rfl, rfl, rfl⟩

theorem microStep_of_exec (hi : decodeSeq s.seq = .ok i) (h : exec i s = .next s') : MicroStep s s' := by
  have hcmd := decodeSeq_isCommand hi
  have not_command : ∀ j : Instr, j.isCommand = true → i ≠ j := fun j hj he => by
    rw [he, hj] at hcmd
    cases hcmd
  obtain ⟨hH, _, hM, _, _, _, _, hHINIT, _, herr, hrsp, hcmds, hturns, _⟩ :=
    everyInstructionKeepsWhatItDoesNotWrite i s s' h
  obtain ⟨hE, hC⟩ := herr (not_command .next rfl) fun k => not_command (.rddig k) rfl
  exact {
    left := microStep_left hi h
    M := hM fun k v => not_command (.wrblk k v) rfl
    HINIT := hHINIT (not_command .init rfl)
    ERR := hE
    ECODE := hC
    cmds := hcmds
    turns := hturns
    rsp := hrsp (not_command .rdstat rfl) fun k => not_command (.rddig k) rfl
    H := fun hb => by
      rcases microStep_to_idle hi h with ⟨_, hp, _⟩ | ⟨hf, _⟩
      · exact absurd hp hb
      · exact hH (not_command .init rfl) hf
    DVALID := fun hp => by
      rcases microStep_to_idle hi h with ⟨_, _, hD⟩ | ⟨_, hb⟩
      · exact hD
      · exact absurd hp hb }

/-! ### How many micro-steps are left -/

theorem microStepsLeft_le (s : State) : microStepsLeft s ≤ 162 := by
  unfold microStepsLeft
  repeat' split
  all_goals omega

theorem ControlLegal.left_pos (h : ControlLegal s) (hb : s.phase ≠ Phase.idle) : 0 < microStepsLeft s := by
  obtain ⟨i, hi⟩ := h.exists_microStep hb
  obtain ⟨s', hs'⟩ := exec_selected_total hi
  have := microStep_left hi hs'
  omega

/-- R27: one micro-step is left exactly in FOLD. -/
theorem ControlLegal.phase_fold (h : ControlLegal s) (h1 : microStepsLeft s = 1) : s.phase = Phase.fold := by
  obtain ⟨hpl, ⟨h79, _⟩, _⟩ := h
  rcases hpl.cases with hp | hp | hp | hp | hp
  · rw [left_idle hp] at h1
    omega
  · rw [left_sched hp] at h1
    omega
  · rw [left_loadv hp] at h1
    omega
  · rw [left_round hp] at h1
    omega
  · exact hp

/-! ### A step of a BUSY engine -/

/-- While BUSY a step that is no reset accepts a poll or runs the micro-step that SEQ selects. -/
theorem select_busy (hl : ControlLegal s) (hb : s.phase ≠ Phase.idle) (hn : NoReset s) :
    (∃ c rest, s.cmds = c :: rest ∧ c.op = 0x50#8 ∧
      select s = .run .rdstat { s with cmds := rest, turns := s.turns.tail }) ∨
    (∃ i, decodeSeq s.seq = .ok i ∧ select s = .run i { s with turns := s.turns.tail }) := by
  rcases select_cases s with ⟨n, ts, ht, _⟩ |
    ⟨_, ⟨c, rest, i, hc, hr, hd, hq⟩ | ⟨c, rest, e, _, hr, hd, _⟩ | h | ⟨hp, _⟩ | ⟨hd, _⟩⟩
  · exact absurd ht (hn n ts)
  · have hop := (cmdReady_busy hb c.op).mp hr
    obtain rfl : Instr.rdstat = i := Except.ok.inj ((decodeCommand_poll hop).symm.trans hd)
    exact .inl ⟨c, rest, hc, hop, hq⟩
  · have hop := (cmdReady_busy hb c.op).mp hr
    cases (decodeCommand_poll hop).symm.trans hd
  · exact .inr h
  · exact absurd hp hb
  · cases hl.seqDefined.symm.trans hd

/-- A step of a BUSY engine: an accepted poll, or a micro-step. -/
theorem step_busy (hl : ControlLegal s) (hb : s.phase ≠ Phase.idle) (hn : NoReset s) :
    (∃ c rest, s.cmds = c :: rest ∧ c.op = 0x50#8 ∧ takesMicroStep s = false ∧
      step s = .next { s with cmds := rest, turns := s.turns.tail, rsp := some s.status }) ∨
    (∃ s', takesMicroStep s = true ∧ step s = .next s' ∧ MicroStep { s with turns := s.turns.tail } s') := by
  rcases select_busy hl hb hn with ⟨c, rest, hc, hop, hq⟩ | ⟨i, hi, hq⟩
  · exact .inl ⟨c, rest, hc, hop, takesMicroStep_of_run hq, step_of_run hq⟩
  · obtain ⟨s', hs'⟩ := exec_selected_total (s := { s with turns := s.turns.tail }) hi
    refine .inr ⟨s', ?_, (step_of_run hq).trans hs', microStep_of_exec hi hs'⟩
    rw [takesMicroStep_of_run hq, decodeSeq_isCommand hi, Bool.not_false]

/-- Settles O53: the two cases of `step_busy`. -/
theorem busyStepPollsOrAdvances : Obligations.BusyStepPollsOrAdvances := by
  unfold Obligations.BusyStepPollsOrAdvances
  intro s hl hb hn
  rcases step_busy (legal_iff.mp hl).1 hb hn with ⟨c, rest, hc, hop, ht, hs⟩ | ⟨s', ht, hs, hm⟩
  · exact ⟨_, hs, rfl, .inl ⟨ht, ⟨c, hop, hc⟩, rfl, rfl, rfl⟩⟩
  · exact ⟨s', hs, hm.turns, .inr ⟨ht, hm.cmds, hm.rsp, hm.left⟩⟩

/-- On the engine's turn a BUSY engine runs a micro-step. -/
theorem takesMicroStep_of_engineFirst (hl : ControlLegal s) (hb : s.phase ≠ Phase.idle) (h : EngineFirst s) :
    takesMicroStep s = true := by
  obtain ⟨i, hi⟩ := hl.exists_microStep hb
  rw [takesMicroStep_of_run (select_of_engineFirst h hi), decodeSeq_isCommand hi, Bool.not_false]

/-! ### The run to IDLE -/

/-- The most polls that can be accepted before the phase is IDLE: one a given turn and one a micro-step, but none before the
next micro-step when no turn is given and a poll was answered just now (DESIGN CHOICE, log entry 3). -/
def pollBound (s : State) : Nat :=
  s.turns.length + microStepsLeft s - if s.turns = [] ∧ s.rsp.isSome = true then 1 else 0

theorem pollBound_le (s : State) : pollBound s ≤ s.turns.length + microStepsLeft s := Nat.sub_le _ _

/-- A poll uses up one of the bound, where the engine does not go first. -/
theorem pollBound_poll (cs : List Command) (v : Word) (hL : 0 < microStepsLeft s)
    (ht : ¬(s.turns = [] ∧ s.rsp.isSome = true)) :
    pollBound { s with cmds := cs, turns := s.turns.tail, rsp := some v } + 1 ≤ pollBound s := by
  have hleft : microStepsLeft { s with cmds := cs, turns := s.turns.tail, rsp := some v } = microStepsLeft s := rfl
  simp only [pollBound, hleft, if_neg ht]
  cases s.turns with
  | nil => simp; omega
  | cons u ts => simp only [List.tail_cons, List.length_cons]; omega

/-- A micro-step uses up none of it. -/
theorem pollBound_microStep (h : MicroStep { s with turns := s.turns.tail } s') : pollBound s' ≤ pollBound s := by
  have hleft : microStepsLeft s' + 1 = microStepsLeft s := h.left
  have hturns : s'.turns = s.turns.tail := h.turns
  simp only [pollBound, h.rsp, hturns]
  cases s.turns with
  | nil => simp; split <;> omega
  | cons u ts => simp; omega

/-- The engine is IDLE after `microStepsLeft s + p` steps, of which `p` accepted the first `p` offers, all polls. -/
def ReachesIdle (s : State) (p : Nat) : Prop :=
  p ≤ s.cmds.length ∧ p ≤ pollBound s ∧ (∀ c ∈ s.cmds.take p, c.op = 0x50#8) ∧ (HostWaits s → p = 0) ∧
    ∃ s', run (microStepsLeft s + p) s = .next s' ∧ s'.phase = Phase.idle ∧ s'.t = 0#7 ∧ s'.DVALID = true ∧
      s'.cmds = s.cmds.drop p

theorem reachesIdle_of_idle (hp : s.phase = Phase.idle) (ht : s.t = 0#7) (hD : s.DVALID = true) : ReachesIdle s 0 := by
  refine ⟨Nat.zero_le _, Nat.zero_le _, by simp, fun _ => rfl, s, ?_, hp, ht, hD, rfl⟩
  rw [left_idle hp]
  rfl

theorem ReachesIdle.poll {c : Command} {rest : List Command} {v : Word} {p : Nat} (hc : s.cmds = c :: rest)
    (hop : c.op = 0x50#8) (hL : 0 < microStepsLeft s) (ht : ¬(s.turns = [] ∧ s.rsp.isSome = true))
    (hs : step s = .next { s with cmds := rest, turns := s.turns.tail, rsp := some v })
    (h : ReachesIdle { s with cmds := rest, turns := s.turns.tail, rsp := some v } p) : ReachesIdle s (p + 1) := by
  obtain ⟨hlen, hbound, hpolls, _, u, hrun, hp, h0, hD, hcmds⟩ := h
  refine ⟨?_, ?_, ?_, ?_, u, (run_succ_of_step hs _).trans hrun, hp, h0, hD, ?_⟩
  · rw [hc]
    exact Nat.succ_le_succ hlen
  · exact (Nat.succ_le_succ hbound).trans (pollBound_poll rest v hL ht)
  · rw [hc]
    simpa [hop] using hpolls
  · intro hw
    exact absurd hop (hw.2 c (by rw [hc]; rfl))
  · rw [hc]
    exact hcmds

theorem ReachesIdle.microStep {p : Nat} (hs : step s = .next s') (hm : MicroStep { s with turns := s.turns.tail } s')
    (h : ReachesIdle s' p) : ReachesIdle s p := by
  obtain ⟨hlen, hbound, hpolls, hwait, u, hrun, hp, h0, hD, hcmds⟩ := h
  have hleft : microStepsLeft s + p = microStepsLeft s' + p + 1 := by
    have : microStepsLeft s' + 1 = microStepsLeft s := hm.left
    omega
  rw [show s'.cmds = s.cmds from hm.cmds] at hlen hpolls hcmds
  refine ⟨hlen, hbound.trans (pollBound_microStep hm), hpolls, fun hw => hwait ⟨?_, ?_⟩, u, ?_, hp, h0, hD, hcmds⟩
  · rw [hm.turns, hw.1]
    rfl
  · rw [hm.cmds]
    exact hw.2
  · rw [hleft, run_succ_of_step hs]
    exact hrun

/-- A BUSY engine becomes IDLE: each step uses up a poll that is offered or a micro-step that is left. -/
theorem reachesIdle (hl : ControlLegal s) (hb : s.phase ≠ Phase.idle) (hr : ∀ n, Turn.reset n ∉ s.turns) :
    ∃ p, ReachesIdle s p := by
  induction hk : microStepsLeft s + s.cmds.length using Nat.strong_induction_on generalizing s with
  | _ k ih =>
  have hn : NoReset s := fun n ts ht => hr n (by simp [ht])
  have htail : ∀ n, Turn.reset n ∉ s.turns.tail := fun n h => hr n (List.mem_of_mem_tail h)
  have hL := hl.left_pos hb
  rcases step_busy hl hb hn with ⟨c, rest, hc, hop, htm, hs⟩ | ⟨s', _, hs, hm⟩
  · have ht : ¬(s.turns = [] ∧ s.rsp.isSome = true) := fun h => by
      rw [takesMicroStep_of_engineFirst hl hb (.inl (.inl h))] at htm
      cases htm
    obtain ⟨p, hp⟩ := ih _ (by simp only [← hk, hc, List.length_cons]; exact Nat.lt_succ_self _)
      (step_keeps_control hs hl) hb htail rfl
    exact ⟨p + 1, hp.poll hc hop hL ht hs⟩
  · have hl' := step_keeps_control hs hl
    by_cases hb' : s'.phase = Phase.idle
    · exact ⟨0, (reachesIdle_of_idle hb' (hl'.2.1.2 (.inl hb')) (hm.DVALID hb')).microStep hs hm⟩
    · have hlt : microStepsLeft s' + s'.cmds.length < k := by
        have h1 : microStepsLeft s' + 1 = microStepsLeft s := hm.left
        have h2 : s'.cmds = s.cmds := hm.cmds
        rw [← hk, h2]
        omega
      obtain ⟨p, hp⟩ := ih _ hlt hl' hb' (by rw [hm.turns]; exact htail) rfl
      exact ⟨p, hp.microStep hs hm⟩

/-- Settles O41: the run of `reachesIdle`, with the bound on the polls relaxed. -/
theorem busyEngineBecomesIdle : Obligations.BusyEngineBecomesIdle := by
  unfold Obligations.BusyEngineBecomesIdle
  intro s hl hb hr
  have hc := (legal_iff.mp hl).1
  obtain ⟨p, hlen, hbound, hpolls, hwait, s', hs'⟩ := reachesIdle hc hb hr
  refine ⟨hc.left_pos hb, microStepsLeft_le s, p, s', hlen, ?_, hpolls, hwait, hs'⟩
  have := hbound.trans (pollBound_le s)
  omega

end Sys2Proof.Machine
end

section
/-! PROOF. The compression (spec/43_compression.md R131, R132): the words of the schedule, what the arrays hold while the
sequencer walks, and NEXT with the 162 micro-steps after it. -/

namespace Sys2Proof.Machine

variable {s s' u : State} {i : Instr}

/-! ### The schedule (R118) -/

theorem scheduleList_length (B : Vector Word 16) (n : Nat) : (scheduleList B n).length = n := by
  induction n with
  | zero => rfl
  | succ n ih =>
    rw [scheduleList]
    split <;> simp [ih]

/-- R118: the word that the list is extended by. -/
theorem scheduleList_succ_getD (B : Vector Word 16) (t : Nat) :
    (scheduleList B (t + 1)).getD t 0#64 =
      if t < 16 then elem B t
      else littleSigma1 ((scheduleList B t).getD (t - 2) 0#64) + (scheduleList B t).getD (t - 7) 0#64
        + littleSigma0 ((scheduleList B t).getD (t - 15) 0#64) + (scheduleList B t).getD (t - 16) 0#64 := by
  rw [scheduleList]
  split <;> simp [scheduleList_length]

/-- A word once in the list stays. -/
theorem scheduleList_getD_succ (B : Vector Word 16) {j n : Nat} (h : j < n) :
    (scheduleList B (n + 1)).getD j 0#64 = (scheduleList B n).getD j 0#64 := by
  have hlen : j < (scheduleList B n).length := by rwa [scheduleList_length]
  rw [scheduleList]
  split <;> exact List.getD_append _ _ _ _ hlen

theorem elem_schedule (B : Vector Word 16) {j n : Nat} (h : j < n) (hn : n ≤ 80) :
    elem (schedule B) j = (scheduleList B n).getD j 0#64 := by
  induction hn using Nat.decreasingInduction with
  | self => exact elem_ofFn _ h
  | of_succ n _ ih => rw [ih (Nat.lt_succ_of_lt h), scheduleList_getD_succ B h]

theorem elem_schedule_copy (B : Vector Word 16) {t : Nat} (h : t ≤ 15) : elem (schedule B) t = elem B t := by
  rw [elem_schedule B (Nat.lt_succ_self t) (by omega), scheduleList_succ_getD, if_pos (by omega)]

/-- R116, R118: the recurrence of the schedule is that of WEXP. -/
theorem elem_schedule_expand (B : Vector Word 16) {t : Nat} (h16 : 16 ≤ t) (h79 : t ≤ 79) :
    elem (schedule B) t = expandWord (schedule B) t := by
  have before : ∀ j, j < t → elem (schedule B) j = (scheduleList B t).getD j 0#64 :=
    fun j hj => elem_schedule B hj (by omega)
  rw [elem_schedule B (Nat.lt_succ_self t) (by omega), scheduleList_succ_getD, if_neg (by omega), expandWord,
    before _ (by omega), before _ (by omega), before _ (by omega), before _ (by omega)]

/-! ### The rounds (R128, R131) -/

theorem roundVars_eq_roundFn (V : Vector Word 8) (k w : Word) : roundVars V k w = roundFn V k w := rfl

theorem elem_foldWords (H V : Vector Word 8) {j : Nat} (h : j < 8) : elem (foldWords H V) j = elem H j + elem V j := by
  interval_cases j <;> rfl

/-- R130, R131: FOLD after eighty rounds gives `Compress`. -/
theorem foldWords_eq_compress (H : Vector Word 8) (B : Vector Word 16) :
    foldWords H (roundsFn (schedule B) H 80) = compress H B := by
  apply ext_elem
  intro j hj
  rw [elem_foldWords _ _ hj]
  exact (elem_ofFn (fun k => elem H k.val + elem (roundsFn (schedule B) H 80) k.val) hj).symm

/-! ### What the arrays hold while the sequencer walks -/

/-- `W` holds the first `n` words of the schedule of `B`. -/
def HoldsSchedule (W : Vector Word 80) (B : Vector Word 16) (n : Nat) : Prop := ∀ j, j < n → elem W j = elem (schedule B) j

theorem HoldsSchedule.write {W : Vector Word 80} {B : Vector Word 16} {n : Nat} {w : Word} (h : HoldsSchedule W B n)
    (hn : n < 80) (hw : w = elem (schedule B) n) : HoldsSchedule (setElem W n w) B (n + 1) := by
  intro j hj
  rw [elem_setElem]
  split
  · next he => rw [hw, he.1]
  · next hne => exact h j (by omega)

theorem HoldsSchedule.all {W : Vector Word 80} {B : Vector Word 16} (h : HoldsSchedule W B 80) : W = schedule B := ext_elem h

/-- R116: WEXP t writes the schedule's word `t` when the words before it are there. -/
theorem HoldsSchedule.expandWord {W : Vector Word 80} {B : Vector Word 16} {t : Nat} (h : HoldsSchedule W B t) (h16 : 16 ≤ t)
    (h79 : t ≤ 79) : expandWord W t = elem (schedule B) t := by
  rw [elem_schedule_expand B h16 h79, Machine.expandWord, Machine.expandWord, h _ (by omega), h _ (by omega), h _ (by omega),
    h _ (by omega)]

theorem tracks_idle (hp : s.phase = Phase.idle) : TracksCompress s := by simp [TracksCompress, hp]

theorem tracks_sched (hp : s.phase = Phase.sched) (h : HoldsSchedule s.W s.M s.t.toNat) : TracksCompress s := by
  simpa [TracksCompress, HoldsSchedule, hp] using h

theorem tracks_loadv (hp : s.phase = Phase.loadv) (h : s.W = schedule s.M) : TracksCompress s := by
  simpa [TracksCompress, hp] using h

theorem tracks_round (hp : s.phase = Phase.round) (hW : s.W = schedule s.M)
    (hV : s.V = roundsFn (schedule s.M) s.H s.t.toNat) : TracksCompress s := by
  simpa [TracksCompress, hp] using ⟨hW, hV⟩

theorem tracks_fold (hp : s.phase = Phase.fold) (hW : s.W = schedule s.M)
    (hV : s.V = roundsFn (schedule s.M) s.H 80) : TracksCompress s := by
  simpa [TracksCompress, hp] using ⟨hW, hV⟩

/-- R119, R131: the micro-step that SEQ selects keeps the compression on its track. -/
theorem microStep_keeps_track (h : exec i s = .next s') (hi : decodeSeq s.seq = .ok i) (ht : TracksCompress s) :
    TracksCompress s' := by
  obtain ⟨hsched, hloadv, hround, _⟩ := ht
  rcases decodeSeq_ok_cases hi with ⟨rfl, hp, h15⟩ | ⟨rfl, hp, h16, h79⟩ | ⟨rfl, hp, _⟩ | ⟨rfl, hp, h79⟩ | ⟨rfl, hp, _⟩
  · have holds : HoldsSchedule s.W s.M s.t.toNat := hsched hp
    obtain ⟨_, _, _, rfl⟩ := exec_wcopy_cases h
    refine tracks_sched rfl ?_
    simpa [index_succ (show s.t.toNat < 79 by omega)] using holds.write (by omega) (elem_schedule_copy s.M h15).symm
  · have holds : HoldsSchedule s.W s.M s.t.toNat := hsched hp
    have written := holds.write (by omega) (holds.expandWord h16 h79)
    obtain ⟨_, _, _, _, ⟨he, rfl⟩ | ⟨hne, rfl⟩⟩ := exec_wexp_cases h
    · refine tracks_loadv rfl (HoldsSchedule.all ?_)
      simpa [he] using written
    · refine tracks_sched rfl ?_
      simpa [index_succ (index_lt h79 hne)] using written
  · obtain ⟨_, _, rfl⟩ := exec_loadv_cases h
    exact tracks_round rfl (hloadv hp) rfl
  · obtain ⟨hW, hV⟩ := hround hp
    have next_vars : roundVars s.V (roundConstant s.t) (elem s.W s.t.toNat) =
        roundsFn (schedule s.M) s.H (s.t.toNat + 1) := by
      rw [roundVars_eq_roundFn, roundsFn, hW, hV, roundConstant]
    obtain ⟨_, _, _, ⟨he, rfl⟩ | ⟨hne, rfl⟩⟩ := exec_round_cases h
    · refine tracks_fold rfl hW (next_vars.trans ?_)
      simp [he]
    · refine tracks_round rfl hW (next_vars.trans ?_)
      simp [index_succ (index_lt h79 hne)]
  · obtain ⟨_, _, rfl⟩ := exec_fold_cases h
    exact tracks_idle rfl

/-! ### Runs with their responses -/

/-- After `n` steps from `s` the state is `u`, and `out` are the responses on the way. -/
def RunsTo (n : Nat) (s : State) (out : List Word) (u : State) : Prop := run n s = .next u ∧ responses n s = out

theorem RunsTo.refl (s : State) : RunsTo 0 s [] s := ⟨rfl, rfl⟩

/-- A step first, then the rest of the run. -/
theorem RunsTo.cons {n : Nat} {out : List Word} (h : step s = .next s') (hr : RunsTo n s' out u) :
    RunsTo (n + 1) s (s'.rsp.toList ++ out) u := by
  obtain ⟨hrun, hout⟩ := hr
  refine ⟨(run_succ_of_step h n).trans hrun, ?_⟩
  rw [responses, h, ← hout]

theorem RunsTo.cons_silent {n : Nat} {out : List Word} (h : step s = .next s') (hs : s'.rsp = none)
    (hr : RunsTo n s' out u) :
    RunsTo (n + 1) s out u := by
  simpa [hs] using RunsTo.cons h hr

/-- One run after another. -/
theorem RunsTo.append {m n : Nat} {out out' : List Word} (h : RunsTo m s out s') (h' : RunsTo n s' out' u) :
    RunsTo (m + n) s (out ++ out') u := by
  induction m generalizing s out with
  | zero =>
    obtain ⟨hrun, rfl⟩ := h
    obtain rfl : s = s' := Host.Outcome.next.inj hrun
    simpa [responses] using h'
  | succ m ih =>
    obtain ⟨hrun, rfl⟩ := h
    rw [run] at hrun
    cases hs : step s with
    | next v =>
      rw [hs] at hrun
      have hv : RunsTo (m + n) v (responses m v ++ out') u := ih ⟨hrun, rfl⟩
      rw [Nat.succ_add, responses, hs, List.append_assoc]
      exact hv.cons hs
    | fault r => rw [hs] at hrun; cases hrun
    | refused r => rw [hs] at hrun; cases hrun

/-! ### The engine's walk -/

/-- For `k` steps the engine goes first: it is given `k` turns, or no turn is given and no poll is offered. -/
def EngineGoes (k : Nat) (s : State) : Prop := (∃ ts, s.turns = List.replicate k .engine ++ ts) ∨ HostWaits s

theorem EngineGoes.first {k : Nat} (h : EngineGoes (k + 1) s) (hb : s.phase ≠ Phase.idle) : EngineFirst s := by
  rcases h with ⟨ts, h⟩ | ⟨ht, hheld⟩
  · exact .inl (.inr ⟨_, h⟩)
  · cases hr : s.rsp with
    | some v => exact .inl (.inl ⟨ht, by simp [hr]⟩)
    | none =>
      refine .inr ⟨.inl ⟨ht, hr⟩, fun c hc => ?_⟩
      rw [Bool.eq_false_iff, ne_eq, cmdReady_busy hb]
      exact hheld c hc

theorem EngineGoes.rest {k : Nat} (h : EngineGoes (k + 1) s) (hm : MicroStep { s with turns := s.turns.tail } s') :
    EngineGoes k s' := by
  rcases h with ⟨ts, h⟩ | ⟨ht, hheld⟩
  · refine .inl ⟨ts, ?_⟩
    rw [hm.turns, h]
    rfl
  · refine .inr ⟨?_, ?_⟩
    · rw [hm.turns, ht]
      rfl
    · rw [hm.cmds]
      exact hheld

/-- Where the engine goes first, the next step is a micro-step; it keeps what an engine amid a compression keeps. -/
theorem step_engine {k : Nat} (hl : ControlLegal s) (ht : TracksCompress s) (hb : s.phase ≠ Phase.idle)
    (hg : EngineGoes (k + 1) s) :
    ∃ i s', decodeSeq s.seq = .ok i ∧ exec i { s with turns := s.turns.tail } = .next s' ∧ step s = .next s' ∧
      MicroStep { s with turns := s.turns.tail } s' ∧ ControlLegal s' ∧ TracksCompress s' ∧ EngineGoes k s' := by
  obtain ⟨i, hi⟩ := hl.exists_microStep hb
  obtain ⟨s', he⟩ := exec_selected_total (s := { s with turns := s.turns.tail }) hi
  have hs : step s = .next s' := (step_of_run (select_of_engineFirst (hg.first hb) hi)).trans he
  have hm : MicroStep { s with turns := s.turns.tail } s' := microStep_of_exec hi he
  exact ⟨i, s', hi, he, hs, hm, step_keeps_control hs hl, microStep_keeps_track he hi ht, hg.rest hm⟩

/-- What `k` micro-steps that do not end the compression make of the state `s`. -/
structure Walked (s : State) (k : Nat) (u : State) : Prop where
  control : ControlLegal u
  tracks  : TracksCompress u
  busy    : u.phase ≠ Phase.idle
  left    : microStepsLeft u + k = microStepsLeft s
  H       : u.H = s.H
  M       : u.M = s.M
  HINIT   : u.HINIT = s.HINIT
  ERR     : u.ERR = s.ERR
  ECODE   : u.ECODE = s.ECODE
  cmds    : u.cmds = s.cmds
  turns   : u.turns = s.turns.drop k

theorem Walked.cons {k : Nat} (hb : s'.phase ≠ Phase.idle) (hm : MicroStep { s with turns := s.turns.tail } s')
    (h : Walked s' k u) : Walked s (k + 1) u where
  control := h.control
  tracks := h.tracks
  busy := h.busy
  left := by
    have h1 := h.left
    have h2 : microStepsLeft s' + 1 = microStepsLeft s := hm.left
    omega
  H := h.H.trans (hm.H hb)
  M := h.M.trans hm.M
  HINIT := h.HINIT.trans hm.HINIT
  ERR := h.ERR.trans hm.ERR
  ECODE := h.ECODE.trans hm.ECODE
  cmds := h.cmds.trans hm.cmds
  turns := by rw [h.turns, hm.turns, List.drop_tail]

theorem Walked.refl (hl : ControlLegal s) (ht : TracksCompress s) (hb : s.phase ≠ Phase.idle) : Walked s 0 s where
  control := hl
  tracks := ht
  busy := hb
  left := rfl
  H := rfl
  M := rfl
  HINIT := rfl
  ERR := rfl
  ECODE := rfl
  cmds := rfl
  turns := rfl

/-- R27, R132: while fewer micro-steps are taken than are left, the engine is BUSY and its compression on track. -/
theorem walk {k m : Nat} (hl : ControlLegal s) (ht : TracksCompress s) (hb : s.phase ≠ Phase.idle)
    (hk : k < microStepsLeft s) (hg : EngineGoes (k + m) s) : ∃ u, RunsTo k s [] u ∧ Walked s k u ∧ EngineGoes m u := by
  induction k generalizing s with
  | zero => exact ⟨s, RunsTo.refl s, Walked.refl hl ht hb, by simpa using hg⟩
  | succ k ih =>
    rw [Nat.succ_add] at hg
    obtain ⟨_, s', _, _, hs, hm, hl', ht', hg'⟩ := step_engine hl ht hb hg
    have hleft : microStepsLeft s' + 1 = microStepsLeft s := hm.left
    have hb' : s'.phase ≠ Phase.idle := fun hp => by
      rw [left_idle hp] at hleft
      omega
    obtain ⟨u, hrun, hwalked, hgu⟩ := ih hl' ht' hb' (by omega) hg'
    exact ⟨u, hrun.cons_silent hs hm.rsp, hwalked.cons hb' hm, hgu⟩

/-- R132: what the whole compression makes of the state `s`. -/
structure Compressed (s u : State) : Prop where
  H      : u.H = compress s.H s.M
  M      : u.M = s.M
  W      : u.W = schedule s.M
  V      : u.V = roundsFn (schedule s.M) s.H 80
  phase  : u.phase = Phase.idle
  t      : u.t = 0#7
  DVALID : u.DVALID = true
  HINIT  : u.HINIT = s.HINIT
  ERR    : u.ERR = s.ERR
  ECODE  : u.ECODE = s.ECODE
  cmds   : u.cmds = s.cmds
  turns  : u.turns = s.turns.drop (microStepsLeft s)

/-- R130: FOLD on track completes the compression. -/
theorem fold_compresses (ht : TracksCompress s) (hp : s.phase = Phase.fold) (h : exec .fold s = .next s') :
    s'.H = compress s.H s.M ∧ s'.W = schedule s.M ∧ s'.V = roundsFn (schedule s.M) s.H 80 := by
  obtain ⟨_, _, _, hfold⟩ := ht
  obtain ⟨hW, hV⟩ := hfold hp
  obtain ⟨_, _, rfl⟩ := exec_fold_cases h
  refine ⟨?_, hW, hV⟩
  change foldWords s.H s.V = _
  rw [hV, foldWords_eq_compress]

/-- R132: from a BUSY state on track the micro-steps that SEQ leaves complete the compression, with no response. -/
theorem walk_compresses (hl : ControlLegal s) (ht : TracksCompress s) (hb : s.phase ≠ Phase.idle)
    (hg : EngineGoes (microStepsLeft s) s) : ∃ u, RunsTo (microStepsLeft s) s [] u ∧ Compressed s u := by
  obtain ⟨k, hk⟩ : ∃ k, microStepsLeft s = k + 1 := Nat.exists_eq_succ_of_ne_zero (hl.left_pos hb).ne'
  rw [hk] at hg ⊢
  obtain ⟨u, hrun, hw, hgu⟩ := walk hl ht hb (by omega) hg
  have hone : microStepsLeft u = 1 := by
    have := hw.left
    omega
  have hfold := hw.control.phase_fold hone
  obtain ⟨i, v, hi, he, hs, hm, hl', _, _⟩ := step_engine (k := 0) hw.control hw.tracks hw.busy hgu
  obtain ⟨rfl, _⟩ : i = .fold ∧ u.t = 0#7 := by simpa [hfold] using decodeSeq_ok_cases hi
  obtain ⟨hH, hW, hV⟩ := fold_compresses (s := { u with turns := u.turns.tail }) hw.tracks hfold he
  obtain ⟨_, _, hv⟩ := exec_fold_cases he
  have hp : v.phase = Phase.idle := by rw [hv]; rfl
  have hsilent : RunsTo 1 u [] v := (RunsTo.refl v).cons_silent hs hm.rsp
  refine ⟨v, hrun.append hsilent, ?_⟩
  exact {
    H := by rw [hH]; exact congrArg₂ compress hw.H hw.M
    M := hm.M.trans hw.M
    W := by rw [hW]; exact congrArg schedule hw.M
    V := by rw [hV]; exact congrArg₂ (fun B h => roundsFn (schedule B) h 80) hw.M hw.H
    phase := hp
    t := hl'.2.1.2 (.inl hp)
    DVALID := hm.DVALID hp
    HINIT := hm.HINIT.trans hw.HINIT
    ERR := hm.ERR.trans hw.ERR
    ECODE := hm.ECODE.trans hw.ECODE
    cmds := hm.cmds.trans hw.cmds
    turns := by rw [hk, hm.turns, hw.turns, List.tail_drop] }

/-! ### NEXT -/

/-- R71: in (IDLE, 0) the step is the meaning of the offered command, whoever moves first. -/
theorem step_of_idle_command {c : Command} {rest : List Command} (hn : NoReset s) (hp : s.phase = Phase.idle)
    (h0 : s.t = 0#7) (hc : s.cmds = c :: rest) (hd : decodeCommand c = .ok i) :
    step s = exec i { s with cmds := rest, turns := s.turns.tail } := by
  apply step_of_run
  rw [select_of_idle_offer hn hp h0 hc, acceptCommand, hd]

theorem exec_next_started (hp : s.phase = Phase.idle) (hH : s.HINIT = true) :
    exec .next s = .next (((s.setDVALID false).setSeq Phase.sched 0#7).respond none) := by
  simp [exec, execNext, whenIdle_of_idle hp, hH]

/-- R143: the state right after an accepted NEXT. -/
def started (s : State) (rest : List Command) : State :=
  { s with cmds := rest, turns := s.turns.tail, DVALID := false, phase := Phase.sched, t := 0#7, rsp := none }

theorem decodeCommand_next (d : Word) : decodeCommand ⟨0x30#8, d⟩ = .ok .next := by simp [decodeCommand, opMajor]

theorem step_next {d : Word} {rest : List Command} (hn : NoReset s) (hp : s.phase = Phase.idle) (h0 : s.t = 0#7)
    (hH : s.HINIT = true) (hc : s.cmds = ⟨0x30#8, d⟩ :: rest) : step s = .next (started s rest) := by
  rw [step_of_idle_command hn hp h0 hc (decodeCommand_next d)]
  exact exec_next_started hp hH

theorem started_left (s : State) (rest : List Command) : microStepsLeft (started s rest) = 162 := rfl

theorem started_busy (s : State) (rest : List Command) : (started s rest).phase ≠ Phase.idle := Phase.sched_ne_idle

theorem started_control (hH : s.HINIT = true) (rest : List Command) : ControlLegal (started s rest) :=
  controlLegal_busy (phaseLegal_of (.inl rfl)) (indexLegal_zero rfl) hH rfl

theorem started_tracks (s : State) (rest : List Command) : TracksCompress (started s rest) :=
  tracks_sched rfl fun j hj => absurd hj (Nat.not_lt_zero j)

/-- Settles O40: NEXT starts the walk of 162 micro-steps. -/
theorem nextCompressesInExactly162MicroSteps : Obligations.NextCompressesInExactly162MicroSteps := by
  unfold Obligations.NextCompressesInExactly162MicroSteps
  intro s d rest ts hp h0 hH hc ht
  have hn : NoReset s := fun n ts' h => by cases (List.cons.inj (ht.symm.trans h)).1
  have hs := step_next hn hp h0 hH hc
  have turns : (started s rest).turns = List.replicate 162 .engine ++ ts := by
    change s.turns.tail = _
    rw [ht, List.tail_cons]
  have control := started_control hH rest
  have tracks := started_tracks s rest
  have busy := started_busy s rest
  constructor
  · obtain ⟨u, ⟨hrun, _⟩, h⟩ := walk_compresses control tracks busy (.inl ⟨ts, turns⟩)
    refine ⟨u, ?_, h.H, h.M, h.DVALID, h.HINIT.trans hH, h.ERR, h.ECODE, h.W, h.V, h.phase, h.t, h.cmds, ?_⟩
    · exact (run_succ_of_step hs 162).trans hrun
    · rw [h.turns, turns, started_left, List.drop_left' List.length_replicate]
  · intro k hk
    have goes : EngineGoes (k + (162 - k)) (started s rest) := by
      rw [Nat.add_sub_cancel' hk.le]
      exact .inl ⟨ts, turns⟩
    obtain ⟨u, ⟨hrun, _⟩, hw, _⟩ := walk control tracks busy hk goes
    obtain ⟨_, hD⟩ := hw.control.2.2.1 hw.busy
    refine ⟨u, ?_, hw.busy, hw.cmds, cmdReady_busy hw.busy, u.status, rfl, ?_, ?_⟩
    · rw [Nat.add_comm]
      exact (run_succ_of_step hs k).trans hrun
    · rw [status_bit_busy, busy_eq_true_iff]
      exact hw.busy
    · rw [status_bit_DVALID, hD]

end Sys2Proof.Machine
end

section
/-! PROOF. A host drives the engine (spec/43_compression.md R149, R150): INIT, blocks as sixteen WRBLK and NEXT, and RDDIG 0
to 7. -/

namespace Sys2Proof.Machine

variable {s s' u : State} {i : Instr}

/-! ### The commands a host sends -/

theorem decodeCommand_hostCommand_wrblk (k : BitVec 4) (v : Word) : decodeCommand ⟨0x2#4 ++ k, v⟩ = .ok (.wrblk k v) := by
  have code : ∀ k : BitVec 4, (0x2#4 ++ k) ≠ 0x10#8 ∧ opMajor (0x2#4 ++ k) = 0x2#4 ∧ opIndex (0x2#4 ++ k) = k := by decide
  obtain ⟨hne, hmaj, hidx⟩ := code k
  simp only [decodeCommand, hne, hmaj, hidx, if_false, if_true]

theorem decodeCommand_hostCommand_rddig (k : BitVec 3) : decodeCommand ⟨0b01000#5 ++ k, 0#64⟩ = .ok (.rddig k) := by
  revert k
  decide

/-- R73: no poll is among the offers. -/
def NoPolls (cs : List Command) : Prop := ∀ c ∈ cs, c.op ≠ 0x50#8

theorem noPolls_wrblk (k : BitVec 4) (v : Word) : NoPolls (hostCommand (.wrblk k v)) := by
  have code : ∀ k : BitVec 4, (0x2#4 ++ k) ≠ 0x50#8 := by decide
  simpa [NoPolls, hostCommand, encode] using code k

theorem noPolls_rddig (k : BitVec 3) : NoPolls (hostCommand (.rddig k)) := by
  have code : ∀ k : BitVec 3, (0b01000#5 ++ k) ≠ 0x50#8 := by decide
  simpa [NoPolls, hostCommand, encode] using code k

theorem noPolls_next : NoPolls (hostCommand .next) := by simp [NoPolls, hostCommand, encode]

theorem NoPolls.append {cs ds : List Command} (h : NoPolls cs) (h' : NoPolls ds) : NoPolls (cs ++ ds) := by
  intro c hc
  rcases List.mem_append.mp hc with hc | hc
  · exact h c hc
  · exact h' c hc

theorem noPolls_flatMap {α : Type} {l : List α} {f : α → List Command} (h : ∀ a ∈ l, NoPolls (f a)) :
    NoPolls (l.flatMap f) := by
  intro c hc
  obtain ⟨a, ha, hc⟩ := List.mem_flatMap.mp hc
  exact h a ha c hc

theorem noPolls_blockCommands (B : Vector Word 16) : NoPolls (blockCommands B) :=
  (noPolls_flatMap fun _ _ => noPolls_wrblk _ _).append noPolls_next

theorem noPolls_digestCommands : NoPolls digestCommands := noPolls_flatMap fun _ _ => noPolls_rddig _

theorem hostWaits_of_noPolls (ht : s.turns = []) (h : NoPolls s.cmds) : HostWaits s :=
  ⟨ht, fun c hc => h c (List.mem_of_mem_head? hc)⟩

/-! ### An engine driven without errors -/

/-- An idle engine after INIT, with no error recorded and no turn given, its hash state `h` and the offers `cs`. -/
structure Driven (h : Vector Word 8) (cs : List Command) (s : State) : Prop where
  phase : s.phase = Phase.idle
  t     : s.t = 0#7
  HINIT : s.HINIT = true
  ERR   : s.ERR = false
  ECODE : s.ECODE = 0#4
  turns : s.turns = []
  H     : s.H = h
  cmds  : s.cmds = cs

theorem noReset_of_nil (h : s.turns = []) : NoReset s := by simp [NoReset, h]

/-- The step of an offered command, where no turn is given. -/
theorem step_of_offer {c : Command} {rest : List Command} (ht : s.turns = []) (hp : s.phase = Phase.idle) (h0 : s.t = 0#7)
    (hc : s.cmds = c :: rest) (hd : decodeCommand c = .ok i) : step s = exec i { s with cmds := rest } := by
  rw [step_of_idle_command (noReset_of_nil ht) hp h0 hc hd, ht, List.tail_nil, ← ht]

/-- R141: INIT. -/
theorem run_init {rest : List Command} (ht : s.turns = []) (hp : s.phase = Phase.idle) (h0 : s.t = 0#7)
    (hE : s.ERR = false) (hC : s.ECODE = 0#4) (hc : s.cmds = hostCommand .init ++ rest) :
    ∃ u, RunsTo 1 s [] u ∧ Driven romIV rest u := by
  have hs := step_of_offer ht hp h0 (show s.cmds = ⟨0x10#8, 0#64⟩ :: rest from hc) rfl
  obtain ⟨u, he⟩ := exec_command_total (i := .init) rfl { s with cmds := rest }
  rcases exec_init_cases he with ⟨_, rfl⟩ | ⟨hb, _⟩
  · exact ⟨_, (RunsTo.refl _).cons_silent (hs.trans he) rfl, hp, h0, rfl, hE, hC, ht, rfl, rfl⟩
  · exact absurd hp hb

/-- R142: WRBLK with the block word of index `j`. -/
theorem step_wrblk {h : Vector Word 8} {j : Nat} {v : Word} {rest : List Command} (hj : j < 16)
    (hd : Driven h (hostCommand (.wrblk (BitVec.ofNat 4 j) v) ++ rest) s) :
    ∃ u, step s = .next u ∧ u.rsp = none ∧ Driven h rest u ∧ u.M = setElem s.M j v := by
  have hs := step_of_offer hd.turns hd.phase hd.t hd.cmds (decodeCommand_hostCommand_wrblk (BitVec.ofNat 4 j) v)
  obtain ⟨u, he⟩ := exec_command_total (i := .wrblk (BitVec.ofNat 4 j) v) rfl { s with cmds := rest }
  rcases exec_wrblk_cases he with ⟨_, rfl⟩ | ⟨hb, _⟩
  · refine ⟨_, hs.trans he, rfl, ⟨hd.phase, hd.t, hd.HINIT, hd.ERR, hd.ECODE, hd.turns, hd.H, rfl⟩, ?_⟩
    simp [BitVec.toNat_ofNat, Nat.mod_eq_of_lt hj]
  · exact absurd hd.phase hb

/-- R144: RDDIG `j` answers word `j` of the hash state. -/
theorem step_rddig {h : Vector Word 8} {j : Nat} {rest : List Command} (hj : j < 8)
    (hd : Driven h (hostCommand (.rddig (BitVec.ofNat 3 j)) ++ rest) s) :
    ∃ u, step s = .next u ∧ u.rsp = some (elem h j) ∧ Driven h rest u ∧ u.DVALID = s.DVALID := by
  have hs := step_of_offer hd.turns hd.phase hd.t hd.cmds (decodeCommand_hostCommand_rddig (BitVec.ofNat 3 j))
  obtain ⟨u, he⟩ := exec_command_total (i := .rddig (BitVec.ofNat 3 j)) rfl { s with cmds := rest }
  rcases exec_rddig_cases he with ⟨_, _, rfl⟩ | ⟨_, hH, _⟩ | ⟨hb, _⟩
  · refine ⟨_, hs.trans he, ?_, ⟨hd.phase, hd.t, hd.HINIT, hd.ERR, hd.ECODE, hd.turns, hd.H, rfl⟩, rfl⟩
    simp [BitVec.toNat_ofNat, Nat.mod_eq_of_lt hj, hd.H]
  · cases hd.HINIT.symm.trans hH
  · exact absurd hd.phase hb

/-- WRBLK for each index of a list: those words of `M` are the block's, the others are as before. -/
theorem run_wrblks {h : Vector Word 8} (B : Vector Word 16) {l : List Nat} {rest : List Command} (hl : ∀ j ∈ l, j < 16)
    (hd : Driven h ((l.flatMap fun j => hostCommand (.wrblk (BitVec.ofNat 4 j) (elem B j))) ++ rest) s) :
    ∃ u, RunsTo l.length s [] u ∧ Driven h rest u ∧ ∀ j, elem u.M j = if j ∈ l then elem B j else elem s.M j := by
  induction l generalizing s with
  | nil => exact ⟨s, RunsTo.refl s, hd, by simp⟩
  | cons k l ih =>
    rw [List.flatMap_cons, List.append_assoc] at hd
    have hk : k < 16 := hl k List.mem_cons_self
    obtain ⟨v, hs, hr, hdv, hM⟩ := step_wrblk hk hd
    obtain ⟨u, hrun, hdu, hu⟩ := ih (fun j hj => hl j (List.mem_cons_of_mem k hj)) hdv
    refine ⟨u, hrun.cons_silent hs hr, hdu, fun j => ?_⟩
    rw [hu, hM, elem_setElem]
    by_cases hj : j ∈ l
    · simp [hj]
    · by_cases hkj : k = j
      · simp [hj, hkj, hkj ▸ hk]
      · simp [hj, hkj, Ne.symm hkj]

/-- RDDIG for each index of a list: the responses are those words of the hash state. -/
theorem run_rddigs {h : Vector Word 8} {l : List Nat} {rest : List Command} (hl : ∀ j ∈ l, j < 8)
    (hd : Driven h ((l.flatMap fun j => hostCommand (.rddig (BitVec.ofNat 3 j))) ++ rest) s) :
    ∃ u, RunsTo l.length s (l.map fun j => elem h j) u ∧ Driven h rest u ∧ u.DVALID = s.DVALID := by
  induction l generalizing s with
  | nil => exact ⟨s, RunsTo.refl s, hd, rfl⟩
  | cons k l ih =>
    rw [List.flatMap_cons, List.append_assoc] at hd
    obtain ⟨v, hs, hr, hdv, hD⟩ := step_rddig (hl k List.mem_cons_self) hd
    obtain ⟨u, hrun, hdu, hDu⟩ := ih (fun j hj => hl j (List.mem_cons_of_mem k hj)) hdv
    refine ⟨u, ?_, hdu, hDu.trans hD⟩
    simpa [hr] using RunsTo.cons hs hrun

/-- R132: NEXT with no poll offered after it, and the 162 micro-steps. -/
theorem run_next {h : Vector Word 8} {rest : List Command} (hw : NoPolls rest)
    (hd : Driven h (hostCommand .next ++ rest) s) :
    ∃ u, RunsTo 163 s [] u ∧ Driven (compress h s.M) rest u ∧ u.DVALID = true := by
  have hs := step_next (noReset_of_nil hd.turns) hd.phase hd.t hd.HINIT hd.cmds
  have turns : (started s rest).turns = [] := by
    change s.turns.tail = []
    rw [hd.turns, List.tail_nil]
  obtain ⟨u, hrun, hu⟩ := walk_compresses (started_control hd.HINIT rest) (started_tracks s rest) (started_busy s rest)
    (.inr (hostWaits_of_noPolls turns hw))
  refine ⟨u, hrun.cons_silent hs rfl, ?_, hu.DVALID⟩
  exact {
    phase := hu.phase
    t := hu.t
    HINIT := hu.HINIT.trans hd.HINIT
    ERR := hu.ERR.trans hd.ERR
    ECODE := hu.ECODE.trans hd.ECODE
    turns := by rw [hu.turns, turns, List.drop_nil]
    H := by rw [hu.H]; exact congrArg (compress · s.M) hd.H
    cmds := hu.cmds }

/-- R83: `BLOCK` compresses its block into the hash state in 179 steps. -/
theorem run_block {h : Vector Word 8} (B : Vector Word 16) {rest : List Command} (hw : NoPolls rest)
    (hd : Driven h (blockCommands B ++ rest) s) :
    ∃ u, RunsTo 179 s [] u ∧ Driven (compress h B) rest u ∧ u.DVALID = true := by
  rw [blockCommands, List.append_assoc] at hd
  obtain ⟨v, hrunv, hdv, hM⟩ := run_wrblks B (fun j hj => List.mem_range.mp hj) hd
  have hB : v.M = B := ext_elem fun j hj => by rw [hM, if_pos (List.mem_range.mpr hj)]
  obtain ⟨u, hrunu, hdu, hD⟩ := run_next hw hdv
  rw [hB] at hdu
  exact ⟨u, hrunv.append hrunu, hdu, hD⟩

/-- R149: the blocks of a list in order. DVALID is 1 after the last one, or as it was when there is none. -/
theorem run_blocks {h : Vector Word 8} {blocks : List (Vector Word 16)} {rest : List Command} (hw : NoPolls rest)
    (hd : Driven h (blocks.flatMap blockCommands ++ rest) s) (hD : blocks = [] → s.DVALID = true) :
    ∃ u, RunsTo (179 * blocks.length) s [] u ∧ Driven (blocks.foldl compress h) rest u ∧ u.DVALID = true := by
  induction blocks generalizing s h with
  | nil => exact ⟨s, RunsTo.refl s, hd, hD rfl⟩
  | cons B blocks ih =>
    rw [List.flatMap_cons, List.append_assoc] at hd
    have later : NoPolls (blocks.flatMap blockCommands ++ rest) :=
      (noPolls_flatMap fun B _ => noPolls_blockCommands B).append hw
    obtain ⟨v, hrunv, hdv, hDv⟩ := run_block B later hd
    obtain ⟨u, hrunu, hdu, hDu⟩ := ih hdv fun _ => hDv
    refine ⟨u, ?_, hdu, hDu⟩
    rw [List.length_cons, Nat.mul_succ, Nat.add_comm]
    exact hrunv.append hrunu

/-- R32: STATUS of an idle engine with HINIT = DVALID = 1 and no error. -/
theorem Driven.status {h : Vector Word 8} {cs : List Command} (hd : Driven h cs s) (hD : s.DVALID = true) :
    s.status = 0x0000000000000006#64 := by
  simp [State.status, State.busy, hd.phase, hd.HINIT, hd.ERR, hd.ECODE, hD]

/-- Settles O42: INIT, then the blocks, then the eight RDDIG. -/
theorem drivingTheEngineComputesChain : Obligations.DrivingTheEngineComputesChain := by
  unfold Obligations.DrivingTheEngineComputesChain
  intro s blocks hne hp h0 hE hC ht hc
  rw [chainCommands, List.append_assoc] at hc
  obtain ⟨s1, run1, hd1⟩ := run_init ht hp h0 hE hC hc
  obtain ⟨s2, run2, hd2, hD2⟩ := run_blocks noPolls_digestCommands hd1 fun h => absurd h hne
  rw [← List.append_nil digestCommands] at hd2
  obtain ⟨s3, run3, hd3, hD3⟩ := run_rddigs (fun j hj => List.mem_range.mp hj) hd2
  obtain ⟨hrun, hout⟩ := (run1.append run2).append run3
  have steps : 9 + 179 * blocks.length = 1 + 179 * blocks.length + (List.range 8).length := by
    rw [List.length_range]
    omega
  rw [steps]
  exact ⟨s3, hrun, hd3.H, ⟨hd3.cmds, hd3.phase⟩, hd3.ERR, hd3.status (hD3.trans hD2), hout⟩

end Sys2Proof.Machine
end

section
/-! PROOF. Words that no rule may read never show (spec/10_state.md R35): two engines that agree in all but such words take the
same steps to two such engines again. -/

namespace Sys2Proof.Machine

variable {a b s : State} {i : Instr}

/-! ### Engines that differ in data words only -/

/-- The state with other words in `H`, `V` and `W`. -/
def State.withWords (s : State) (H V : Vector Word 8) (W : Vector Word 80) : State := { s with H := H, V := V, W := W }

/-- The words that a later rule may read agree: the last clauses of `SameView`. -/
def WordsAgree (a b : State) : Prop :=
  (a.HINIT = true → a.H = b.H) ∧
  (a.phase = Phase.sched → ∀ j, j < a.t.toNat → elem a.W j = elem b.W j) ∧
  (a.phase = Phase.loadv → a.W = b.W) ∧
  (a.phase = Phase.round → a.W = b.W ∧ a.V = b.V) ∧
  (a.phase = Phase.fold → a.V = b.V)

/-- The other clauses of `SameView` say that nothing but `H`, `V` and `W` differs. -/
theorem sameView_iff : SameView a b ↔ (∃ H V W, b = a.withWords H V W) ∧ WordsAgree a b := by
  constructor
  · rintro ⟨hM, hp, ht, hH, hD, hE, hC, hcmds, hrsp, hturns, hdraws, hwords⟩
    refine ⟨⟨b.H, b.V, b.W, ?_⟩, hwords⟩
    rw [State.withWords, hM, hp, ht, hH, hD, hE, hC, hcmds, hrsp, hturns, hdraws]
  · rintro ⟨⟨H, V, W, rfl⟩, hwords⟩
    exact ⟨rfl, rfl, rfl, rfl, rfl, rfl, rfl, rfl, rfl, rfl, rfl, hwords⟩

theorem sameView_withWords {H V : Vector Word 8} {W : Vector Word 80} (h : WordsAgree s (s.withWords H V W)) :
    SameView s (s.withWords H V W) := sameView_iff.mpr ⟨⟨H, V, W, rfl⟩, h⟩

theorem SameView.refl (s : State) : SameView s s :=
  ⟨rfl, rfl, rfl, rfl, rfl, rfl, rfl, rfl, rfl, rfl, rfl, fun _ => rfl, fun _ _ _ => rfl, fun _ => rfl, fun _ => ⟨rfl, rfl⟩,
    fun _ => rfl⟩

theorem wordsAgree_idle (hp : a.phase = Phase.idle) (hH : a.HINIT = true → a.H = b.H) : WordsAgree a b := by
  simpa [WordsAgree, hp] using hH

theorem wordsAgree_sched (hp : a.phase = Phase.sched) (hH : a.HINIT = true → a.H = b.H)
    (hW : ∀ j, j < a.t.toNat → elem a.W j = elem b.W j) : WordsAgree a b := by
  simpa [WordsAgree, hp] using ⟨hH, hW⟩

theorem wordsAgree_loadv (hp : a.phase = Phase.loadv) (hH : a.HINIT = true → a.H = b.H) (hW : a.W = b.W) :
    WordsAgree a b := by
  simpa [WordsAgree, hp] using ⟨hH, hW⟩

theorem wordsAgree_round (hp : a.phase = Phase.round) (hH : a.HINIT = true → a.H = b.H) (hW : a.W = b.W)
    (hV : a.V = b.V) : WordsAgree a b := by
  simpa [WordsAgree, hp] using ⟨hH, hW, hV⟩

theorem wordsAgree_fold (hp : a.phase = Phase.fold) (hH : a.HINIT = true → a.H = b.H) (hV : a.V = b.V) :
    WordsAgree a b := by
  simpa [WordsAgree, hp] using ⟨hH, hV⟩

/-- A write of the same word right after the words of `W` that agree. -/
theorem agree_setElem {W W' : Vector Word 80} {n : Nat} {w w' : Word} (h : ∀ j, j < n → elem W j = elem W' j) (hw : w = w') :
    ∀ j, j < n + 1 → elem (setElem W n w) j = elem (setElem W' n w') j := by
  intro j hj
  rw [elem_setElem, elem_setElem, hw]
  split
  · rfl
  · next hne =>
    by_cases hjn : j < n
    · exact h j hjn
    · obtain rfl : j = n := by omega
      have hge : 80 ≤ j := by
        by_contra hlt
        exact hne ⟨rfl, by omega⟩
      rw [elem_of_ge _ hge, elem_of_ge _ hge]

theorem expandWord_agree {W W' : Vector Word 80} {n : Nat} (h : ∀ j, j < n → elem W j = elem W' j) (hn : 16 ≤ n) :
    expandWord W n = expandWord W' n := by
  rw [expandWord, expandWord, h _ (by omega), h _ (by omega), h _ (by omega), h _ (by omega)]

/-! ### The instructions -/

/-- Both outcomes are next states, and these agree. -/
def SameOutcome (o o' : Outcome) : Prop := ∃ a' b', o = .next a' ∧ o' = .next b' ∧ SameView a' b'

theorem whenIdle_same {effect : State → State} {H V : Vector Word 8} {W : Vector Word 80}
    (hw : WordsAgree s (s.withWords H V W)) (h : s.phase = Phase.idle → SameView (effect s) (effect (s.withWords H V W))) :
    SameOutcome (whenIdle s effect) (whenIdle (s.withWords H V W) effect) := by
  by_cases hp : s.phase = Phase.idle
  · exact ⟨_, _, whenIdle_of_idle hp effect, whenIdle_of_idle (s := s.withWords H V W) hp effect, h hp⟩
  · exact ⟨_, _, whenIdle_of_busy hp effect, whenIdle_of_busy (s := s.withWords H V W) hp effect, sameView_withWords hw⟩

theorem whenSelected_same {p : Phase} {n : BitVec 7} {r : Bool} {effect : State → State} {H V : Vector Word 8}
    {W : Vector Word 80} (hp : s.phase = p) (hn : s.t = n) (hr : r = true)
    (h : SameView (effect s) (effect (s.withWords H V W))) :
    SameOutcome (whenSelected s p n r effect) (whenSelected (s.withWords H V W) p n r effect) :=
  ⟨_, _, whenSelected_of hp hn hr effect, whenSelected_of (s := s.withWords H V W) hp hn hr effect, h⟩

variable {H V : Vector Word 8} {W : Vector Word 80}

/-- R35, R144: a command reads no hidden word. -/
theorem exec_command_same (hw : WordsAgree s (s.withWords H V W)) (hc : i.isCommand = true) :
    SameOutcome (exec i s) (exec i (s.withWords H V W)) := by
  cases i with
  | init =>
    simp only [exec, execInit]
    exact whenIdle_same hw fun hp => sameView_withWords (wordsAgree_idle hp fun _ => rfl)
  | wrblk k v =>
    simp only [exec, execWrblk]
    exact whenIdle_same hw fun _ => sameView_withWords hw
  | next =>
    simp only [exec, execNext]
    refine whenIdle_same hw fun hp => ?_
    by_cases hH : s.HINIT = true
    · rw [if_pos hH, if_pos (show (s.withWords H V W).HINIT = true from hH)]
      exact sameView_withWords (wordsAgree_sched rfl hw.1 fun j hj => absurd hj (Nat.not_lt_zero j))
    · rw [if_neg hH, if_neg (show ¬(s.withWords H V W).HINIT = true from hH)]
      exact sameView_withWords hw
  | rddig k =>
    simp only [exec, execRddig]
    refine whenIdle_same hw fun hp => ?_
    by_cases hH : s.HINIT = true
    · rw [if_pos hH, if_pos (show (s.withWords H V W).HINIT = true from hH), ← show s.H = (s.withWords H V W).H from hw.1 hH]
      exact sameView_withWords hw
    · rw [if_neg hH, if_neg (show ¬(s.withWords H V W).HINIT = true from hH)]
      exact sameView_withWords hw
  | rdstat => exact ⟨_, _, rfl, rfl, sameView_withWords hw⟩
  | wcopy t => cases hc
  | wexp t => cases hc
  | loadv => cases hc
  | round t => cases hc
  | fold => cases hc

theorem illegalCommand_same (hw : WordsAgree s (s.withWords H V W)) :
    SameOutcome (illegalCommand s) (illegalCommand (s.withWords H V W)) :=
  whenIdle_same hw fun _ => sameView_withWords hw

/-- R35: the micro-step that SEQ selects reads words only that this compression has written. -/
theorem exec_microStep_same (hw : WordsAgree s (s.withWords H V W)) (hf : FlagsLegal s) (hi : decodeSeq s.seq = .ok i) :
    SameOutcome (exec i s) (exec i (s.withWords H V W)) := by
  obtain ⟨hH, hsched, hloadv, hround, hfold⟩ := hw
  have hH' : s.phase ≠ Phase.idle → s.H = H := fun hb => hH (hf.1 hb).1
  rcases decodeSeq_ok_cases hi with ⟨rfl, hp, h15⟩ | ⟨rfl, hp, h16, h79⟩ | ⟨rfl, hp, ht⟩ | ⟨rfl, hp, h79⟩ | ⟨rfl, hp, ht⟩
  · have agree := agree_setElem (hsched hp) (rfl : elem s.M s.t.toNat = elem s.M s.t.toNat)
    rw [← index_succ (show s.t.toNat < 79 by omega)] at agree
    simp only [exec, execWcopy]
    exact whenSelected_same hp rfl (decide_eq_true h15) (sameView_withWords (wordsAgree_sched rfl hH agree))
  · have agree := agree_setElem (hsched hp) (expandWord_agree (hsched hp) h16)
    have hr : wexpRange s.t = true := decide_eq_true ⟨h16, h79⟩
    simp only [exec, execWexp]
    refine whenSelected_same hp rfl hr ?_
    by_cases he : s.t = 79#7
    · simp only [if_pos he]
      rw [show s.t.toNat + 1 = 80 by rw [he]; rfl] at agree
      exact sameView_withWords (wordsAgree_loadv rfl hH (ext_elem agree))
    · simp only [if_neg he]
      rw [← index_succ (index_lt h79 he)] at agree
      exact sameView_withWords (wordsAgree_sched rfl hH agree)
  · simp only [exec, execLoadv]
    exact whenSelected_same hp ht rfl
      (sameView_withWords (wordsAgree_round rfl hH (hloadv hp) (hH' (by simp [hp]))))
  · obtain ⟨hW, hV⟩ := hround hp
    simp only [exec, execRound]
    refine whenSelected_same hp rfl (decide_eq_true h79) ?_
    rw [← hW, ← hV]
    by_cases he : s.t = 79#7
    · simp only [if_pos he]
      exact sameView_withWords (wordsAgree_fold rfl hH rfl)
    · simp only [if_neg he]
      exact sameView_withWords (wordsAgree_round rfl hH hW rfl)
  · simp only [exec, execFold]
    refine whenSelected_same hp ht rfl (sameView_withWords (wordsAgree_idle rfl fun _ => ?_))
    exact congrArg₂ foldWords (hH' (by simp [hp])) (hfold hp)

/-! ### The step -/

/-- What is selected, with the state it starts from changed by `f`. -/
def Selection.mapState (f : State → State) : Selection → Selection
  | .reset n s => .reset n (f s)
  | .run i s => .run i (f s)
  | .illegal s => .illegal (f s)
  | .idle s => .idle (f s)
  | .stuck => .stuck

theorem selectMicroStep_withWords (s : State) :
    selectMicroStep (s.withWords H V W) = (selectMicroStep s).mapState (·.withWords H V W) := by
  rw [selectMicroStep, selectMicroStep, show (s.withWords H V W).seq = s.seq from rfl]
  cases decodeSeq s.seq with
  | ok i => rfl
  | error e => cases e <;> rfl

theorem acceptCommand_withWords (c : Command) (s : State) :
    acceptCommand c (s.withWords H V W) = (acceptCommand c s).mapState (·.withWords H V W) := by
  rw [acceptCommand, acceptCommand]
  cases decodeCommand c <;> rfl

theorem selectHost_withWords (s : State) :
    selectHost (s.withWords H V W) = (selectHost s).mapState (·.withWords H V W) := by
  by_cases hd : seqDefined s.seq = true
  · by_cases hc : ∃ c rest, s.cmds = c :: rest ∧ cmdReady false s.phase c.op = true
    · obtain ⟨c, rest, hc, hr⟩ := hc
      rw [selectHost_of_ready hd hc hr, selectHost_of_ready (s := s.withWords H V W) hd hc hr]
      exact acceptCommand_withWords c { s with cmds := rest }
    · have held : ∀ c, s.cmds.head? = some c → cmdReady false s.phase c.op = false := fun c h => by
        obtain ⟨rest, h⟩ := List.head?_eq_some_iff.mp h
        exact Bool.eq_false_iff.mpr fun hr => hc ⟨c, rest, h, hr⟩
      rw [selectHost_of_held hd held, selectHost_of_held (s := s.withWords H V W) hd held]
      exact selectMicroStep_withWords s
  · have hd := Bool.eq_false_iff.mpr hd
    rw [selectHost_of_undefined hd, selectHost_of_undefined (s := s.withWords H V W) hd]
    rfl

theorem selectEngine_withWords (s : State) :
    selectEngine (s.withWords H V W) = (selectEngine s).mapState (·.withWords H V W) := by
  rw [selectEngine, selectEngine, show (s.withWords H V W).seq = s.seq from rfl]
  cases decodeSeq s.seq with
  | ok i => rfl
  | error e => exact selectHost_withWords s

/-- R73: which agent moves and what it does is a function of the sequencer, the offers, the turns and the response. -/
theorem select_withWords (s : State) : select (s.withWords H V W) = (select s).mapState (·.withWords H V W) := by
  rcases turn_cases s with ⟨n, ts, h⟩ | h | h
  · rw [select, select, h, show (s.withWords H V W).turns = _ from h]
    rfl
  · rw [select_of_host h, select_of_host (s := s.withWords H V W) h]
    exact selectHost_withWords { s with turns := s.turns.tail }
  · rw [select_of_engine h, select_of_engine (s := s.withWords H V W) h]
    exact selectEngine_withWords { s with turns := s.turns.tail }

theorem step_same (hw : WordsAgree s (s.withWords H V W)) (hl : ControlLegal s) :
    SameOutcome (step s) (step (s.withWords H V W)) := by
  obtain ⟨_, _, hf⟩ := id hl
  rw [step, step, select_withWords]
  rcases select_cases s with ⟨n, ts, _, hq⟩ |
    ⟨_, ⟨c, rest, i, _, _, hd, hq⟩ | ⟨c, rest, e, _, _, _, hq⟩ | ⟨i, hi, hq⟩ | ⟨_, _, hq⟩ | ⟨hd, _⟩⟩
  · rw [hq]
    exact ⟨_, _, rfl, rfl, SameView.refl (resetEvent { s with turns := ts } n)⟩
  · rw [hq]
    exact exec_command_same (s := { s with cmds := rest, turns := s.turns.tail }) hw (decodeCommand_isCommand hd)
  · rw [hq]
    exact illegalCommand_same (s := { s with cmds := rest, turns := s.turns.tail }) hw
  · rw [hq]
    exact exec_microStep_same (s := { s with turns := s.turns.tail }) hw hf hi
  · rw [hq]
    exact ⟨_, _, rfl, rfl, sameView_withWords (s := ({ s with turns := s.turns.tail } : State).respond none) hw⟩
  · cases hl.seqDefined.symm.trans hd

/-- Settles O43: two such states differ in data words only, and their steps agree. -/
theorem hiddenWordsNeverShow : Obligations.HiddenWordsNeverShow := by
  unfold Obligations.HiddenWordsNeverShow
  intro a b hl hv
  obtain ⟨⟨H, V, W, rfl⟩, hw⟩ := sameView_iff.mp hv
  exact step_same hw (legal_iff.mp hl).1

end Sys2Proof.Machine
end

section
/-! PROOF. Bytes and words (spec/45_host_padding.md R164, R168): eight bytes, most significant first, pack to the word they were
taken from. -/

namespace Sys2Proof.Machine

/-- A number with its bits below `e + 8` cleared, and the byte from bit `e` on put back. -/
theorem clear_bytes_add_byte (x e : Nat) :
    x / 2 ^ (e + 8) * 2 ^ (e + 8) + x / 2 ^ e % 2 ^ 8 * 2 ^ e = x / 2 ^ e * 2 ^ e := by
  calc x / 2 ^ (e + 8) * 2 ^ (e + 8) + x / 2 ^ e % 2 ^ 8 * 2 ^ e
      = (x / 2 ^ e / 2 ^ 8 * 2 ^ 8 + x / 2 ^ e % 2 ^ 8) * 2 ^ e := by rw [Nat.div_div_eq_div_mul, ← Nat.pow_add]; ring
    _ = x / 2 ^ e * 2 ^ e := by rw [Nat.div_add_mod']

/-- R54: the leading `n` bytes of a number of eight bytes are the number with its other bytes cleared. -/
theorem sum_leading_bytes {x n : Nat} (hx : x < 2 ^ 64) (hn : n ≤ 8) :
    ((List.range n).map fun k => x / 2 ^ (8 * (7 - k)) % 2 ^ 8 * 2 ^ (8 * (7 - k))).sum =
      x / 2 ^ (8 * (8 - n)) * 2 ^ (8 * (8 - n)) := by
  induction n with
  | zero => simpa using hx
  | succ n ih =>
    have hexp : 8 * (8 - n) = 8 * (7 - n) + 8 := by omega
    rw [List.range_succ, List.map_append, List.sum_append, ih (by omega), List.map_singleton, List.sum_singleton,
      Nat.add_sub_add_right 7 1 n, hexp, clear_bytes_add_byte]

/-- R164: where a byte list holds the bytes of `x`, most significant first, the word packed there is `x`. -/
theorem packWord_eq_of_bytes {P : List Byte} {at0 : Nat} {x : Word}
    (h : ∀ k, k < 8 → P.getD (at0 + k) 0#8 = x.extractLsb' (56 - 8 * k) 8) : packWord P at0 = x := by
  have hbyte : ∀ k ∈ List.range 8, (P.getD (at0 + k) 0#8).toNat * 2 ^ (8 * (7 - k)) =
      x.toNat / 2 ^ (8 * (7 - k)) % 2 ^ 8 * 2 ^ (8 * (7 - k)) := fun k hk => by
    rw [h k (List.mem_range.mp hk), BitVec.extractLsb'_toNat, Nat.shiftRight_eq_div_pow,
      show 56 - 8 * k = 8 * (7 - k) by omega]
  rw [packWord, List.map_congr_left hbyte, sum_leading_bytes x.isLt le_rfl]
  simp

@[simp] theorem digestBytes_length (h : Vector Word 8) : (digestBytes h).length = 64 := by
  simp [digestBytes]

/-- R168: byte `8i + k` is byte `k`, most significant first, of word `i`. -/
theorem digestBytes_getD (h : Vector Word 8) {i k : Nat} (hi : i < 8) (hk : k < 8) :
    (digestBytes h).getD (8 * i + k) 0#8 = (elem h i).extractLsb' (56 - 8 * k) 8 := by
  have hlt : 8 * i + k < 64 := by omega
  have hdiv : (8 * i + k) / 8 = i := by omega
  have hmod : (8 * i + k) % 8 = k := by omega
  simp [digestBytes, hlt, hdiv, hmod]

/-- Settles O51: word `i` packs from its own eight bytes of the digest. -/
theorem digestBytesPackBackToTheWords : Obligations.DigestBytesPackBackToTheWords := by
  unfold Obligations.DigestBytesPackBackToTheWords
  exact fun h => ⟨digestBytes_length h, fun _ hi => packWord_eq_of_bytes fun _ hk => digestBytes_getD h hi hk⟩

end Sys2Proof.Machine
end

section
/-! PROOF. The two encoding spaces (spec/30_encoding.md R74 to R80): encoding and decoding undo each other, the decoders read off the
number in OP and SEQ, and the match/mask rows of the table as intervals of numbers. -/

namespace Sys2Proof.Machine

variable {s : State} {i : Instr} {c : Command}

/-! ### Encoding and decoding undo each other -/

/-- Settles O1: the code of each command, and the value of SEQ of each micro-step. -/
theorem encodeThenDecodeGivesTheInstruction : Obligations.EncodeThenDecodeGivesTheInstruction := by
  unfold Obligations.EncodeThenDecodeGivesTheInstruction
  intro i hw
  cases i with
  | init => rfl
  | wrblk k v => exact decodeCommand_hostCommand_wrblk k v
  | next => rfl
  | rddig k => exact decodeCommand_hostCommand_rddig k
  | rdstat => rfl
  | wcopy t =>
    have selected : wcopyRange t = true := hw
    simp [decode, encode, decodeSeq, selected]
  | wexp t =>
    have selected : wexpRange t = true := hw
    have not_copied : wcopyRange t = false := decide_eq_false (by have := (of_decide_eq_true selected).1; omega)
    simp [decode, encode, decodeSeq, not_copied, selected]
  | loadv => rfl
  | round t =>
    have selected : roundRange t = true := hw
    simp [decode, encode, decodeSeq, selected]
  | fold => rfl

/-- R74: OP = MAJ IDX. -/
theorem opMajor_append_opIndex (op : BitVec 8) : opMajor op ++ opIndex op = op := by
  rw [opMajor, opIndex, BitVec.extractLsb'_append_extractLsb'_eq_extractLsb' (by rfl), BitVec.extractLsb'_eq_self]

/-- R77: the code of RDDIG is five fixed bits and the index. -/
theorem rddig_bits_append (op : BitVec 8) : op.extractLsb' 3 5 ++ op.extractLsb' 0 3 = op := by
  rw [BitVec.extractLsb'_append_extractLsb'_eq_extractLsb' (by rfl), BitVec.extractLsb'_eq_self]

/-- R26: SEQ = phase t. -/
theorem seqPhase_append_seqIndex (q : BitVec 10) : seqPhase q ++ seqIndex q = q := by
  rw [seqPhase, seqIndex, BitVec.extractLsb'_append_extractLsb'_eq_extractLsb' (by rfl), BitVec.extractLsb'_eq_self]

/-- R26: every value of SEQ is the one of some state. -/
theorem exists_state_seq (q : BitVec 10) : ∃ s : State, s.seq = q :=
  ⟨{ State.reset with phase := seqPhase q, t := seqIndex q }, seqPhase_append_seqIndex q⟩

/-- R77: a legal code is written back by the encoder, DATA where it is an operand. -/
theorem encode_of_decodeCommand (h : decodeCommand c = .ok i) :
    i.wellFormed = true ∧ ∃ d, encode i = .command ⟨c.op, d⟩ ∧ (opMajor c.op = 0x2#4 → d = c.data) := by
  rcases decodeCommand_ok_cases h with ⟨rfl, ho⟩ | ⟨rfl, ho⟩ | ⟨rfl, ho⟩ | ⟨rfl, ho⟩ | ⟨rfl, ho⟩
  · exact ⟨rfl, 0#64, by rw [ho]; rfl, by simp [ho, opMajor]⟩
  · exact ⟨rfl, c.data, by rw [encode, ← ho, opMajor_append_opIndex], fun _ => rfl⟩
  · exact ⟨rfl, 0#64, by rw [ho]; rfl, by simp [ho, opMajor]⟩
  · refine ⟨rfl, 0#64, by rw [encode, ← ho, rddig_bits_append], fun hmajor => ?_⟩
    have not_both : ∀ op : BitVec 8, op.extractLsb' 3 5 = 0b01000#5 → opMajor op ≠ 0x2#4 := by decide
    exact absurd hmajor (not_both c.op ho)
  · exact ⟨rfl, 0#64, by rw [ho]; rfl, by simp [ho, opMajor]⟩

/-- R80: the value of SEQ that selects a micro-step is written back by the encoder. -/
theorem encode_of_decodeSeq (h : decodeSeq s.seq = .ok i) : i.wellFormed = true ∧ encode i = .seq s.seq := by
  rcases decodeSeq_ok_cases h with ⟨rfl, hp, ht⟩ | ⟨rfl, hp, ht⟩ | ⟨rfl, hp, ht⟩ | ⟨rfl, hp, ht⟩ | ⟨rfl, hp, ht⟩
  · exact ⟨decide_eq_true ht, by rw [encode, State.seq, hp]⟩
  · exact ⟨decide_eq_true ht, by rw [encode, State.seq, hp]⟩
  · exact ⟨rfl, by rw [encode, State.seq, hp, ht]⟩
  · exact ⟨decide_eq_true ht, by rw [encode, State.seq, hp]⟩
  · exact ⟨rfl, by rw [encode, State.seq, hp, ht]⟩

/-- Settles O2: the codes of the commands, and the values of SEQ, each of which some state has. -/
theorem decodeThenEncodeGivesTheCodeBack : Obligations.DecodeThenEncodeGivesTheCodeBack := by
  unfold Obligations.DecodeThenEncodeGivesTheCodeBack
  constructor
  · intro c i h
    exact ⟨decodeCommand_isCommand h, encode_of_decodeCommand h⟩
  · intro q i h
    obtain ⟨s, rfl⟩ := exists_state_seq q
    exact ⟨decodeSeq_isCommand h, encode_of_decodeSeq h⟩

/-- Settles O5: the decoders run on the eight codes. -/
theorem wordsWrittenFromTheSpecDecode : Obligations.WordsWrittenFromTheSpecDecode := by
  unfold Obligations.WordsWrittenFromTheSpecDecode
  decide

/-! ### The decoders read off the number in OP and SEQ -/

theorem opMajor_eq_two_iff (op : BitVec 8) : opMajor op = 0x2#4 ↔ 0x20 ≤ op.toNat ∧ op.toNat ≤ 0x2F := by
  rw [← BitVec.toNat_inj, opMajor, BitVec.extractLsb'_toNat, Nat.shiftRight_eq_div_pow, BitVec.toNat_ofNat]
  have := op.isLt
  omega

theorem rddig_bits_iff (op : BitVec 8) : op.extractLsb' 3 5 = 0b01000#5 ↔ 0x40 ≤ op.toNat ∧ op.toNat ≤ 0x47 := by
  rw [← BitVec.toNat_inj, BitVec.extractLsb'_toNat, Nat.shiftRight_eq_div_pow, BitVec.toNat_ofNat]
  have := op.isLt
  omega

/-- R74: the index fields are the number in OP counted from the first code of the row. -/
theorem opIndex_eq_sub {op : BitVec 8} (h : 0x20 ≤ op.toNat) : opIndex op = BitVec.ofNat 4 (op.toNat - 0x20) := by
  apply BitVec.eq_of_toNat_eq
  rw [opIndex, BitVec.extractLsb'_toNat, BitVec.toNat_ofNat]
  omega

theorem rddig_index_eq_sub {op : BitVec 8} (h : 0x40 ≤ op.toNat) :
    op.extractLsb' 0 3 = BitVec.ofNat 3 (op.toNat - 0x40) := by
  apply BitVec.eq_of_toNat_eq
  rw [BitVec.extractLsb'_toNat, BitVec.toNat_ofNat]
  omega

/-- R77: the map of the codes by value. -/
theorem decodeCommand_eq_map (op : BitVec 8) (d : Word) : decodeCommand ⟨op, d⟩ =
    if op.toNat = 0x10 then .ok .init
    else if 0x20 ≤ op.toNat ∧ op.toNat ≤ 0x2F then .ok (.wrblk (BitVec.ofNat 4 (op.toNat - 0x20)) d)
    else if op.toNat = 0x30 then .ok .next
    else if 0x40 ≤ op.toNat ∧ op.toNat ≤ 0x47 then .ok (.rddig (BitVec.ofNat 3 (op.toNat - 0x40)))
    else if op.toNat = 0x50 then .ok .rdstat
    else .error (.illegalCommand op) := by
  have value : ∀ n, n < 256 → (op = BitVec.ofNat 8 n ↔ op.toNat = n) := fun n hn => by
    rw [← BitVec.toNat_inj, BitVec.toNat_ofNat, Nat.mod_eq_of_lt hn]
  simp only [decodeCommand, value, Nat.reduceLT, opMajor_eq_two_iff, rddig_bits_iff]
  split_ifs with _ hw _ hr
  · rfl
  · rw [opIndex_eq_sub hw.1]
  · rfl
  · rw [rddig_index_eq_sub hr.1]
  · rfl
  · rfl

theorem seqPhase_eq_iff (q : BitVec 10) (p : Phase) : seqPhase q = p ↔ q.toNat / 128 = p.toNat := by
  rw [← BitVec.toNat_inj, seqPhase, BitVec.extractLsb'_toNat, Nat.shiftRight_eq_div_pow]
  have := q.isLt
  omega

theorem seqIndex_toNat (q : BitVec 10) : (seqIndex q).toNat = q.toNat % 128 := by
  rw [seqIndex, BitVec.extractLsb'_toNat, Nat.shiftRight_zero]

theorem seqIndex_eq_zero_iff (q : BitVec 10) : seqIndex q = 0#7 ↔ q.toNat % 128 = 0 := by
  rw [← BitVec.toNat_inj, seqIndex_toNat, BitVec.toNat_ofNat]

/-- R26: `t` is the number in SEQ counted from the phase's first value. -/
theorem seqIndex_eq_sub {q : BitVec 10} {p : Nat} (h : 128 * p ≤ q.toNat) :
    seqIndex q = BitVec.ofNat 7 (q.toNat - 128 * p) := by
  apply BitVec.eq_of_toNat_eq
  rw [seqIndex_toNat, BitVec.toNat_ofNat]
  omega

/-- R80: the micro-steps by value of SEQ. -/
theorem decodeSeq_eq_map (q : BitVec 10) : decodeSeq q =
    if q.toNat = 0 then .error .noneEnabled
    else if 0x080 ≤ q.toNat ∧ q.toNat ≤ 0x08F then .ok (.wcopy (BitVec.ofNat 7 (q.toNat - 0x080)))
    else if 0x090 ≤ q.toNat ∧ q.toNat ≤ 0x0CF then .ok (.wexp (BitVec.ofNat 7 (q.toNat - 0x080)))
    else if q.toNat = 0x100 then .ok .loadv
    else if 0x180 ≤ q.toNat ∧ q.toNat ≤ 0x1CF then .ok (.round (BitVec.ofNat 7 (q.toNat - 0x180)))
    else if q.toNat = 0x200 then .ok .fold
    else .error (.undefinedSequencer q) := by
  have idle : q.toNat / 128 = 0 ∧ q.toNat % 128 = 0 ↔ q.toNat = 0 := by omega
  have copy : q.toNat / 128 = 1 ∧ q.toNat % 128 ≤ 15 ↔ 0x080 ≤ q.toNat ∧ q.toNat ≤ 0x08F := by omega
  have expand : q.toNat / 128 = 1 ∧ 16 ≤ q.toNat % 128 ∧ q.toNat % 128 ≤ 79 ↔ 0x090 ≤ q.toNat ∧ q.toNat ≤ 0x0CF := by omega
  have load : q.toNat / 128 = 2 ∧ q.toNat % 128 = 0 ↔ q.toNat = 0x100 := by omega
  have rounds : q.toNat / 128 = 3 ∧ q.toNat % 128 ≤ 79 ↔ 0x180 ≤ q.toNat ∧ q.toNat ≤ 0x1CF := by omega
  have fold : q.toNat / 128 = 4 ∧ q.toNat % 128 = 0 ↔ q.toNat = 0x200 := by omega
  simp only [decodeSeq, seqPhase_eq_iff, seqIndex_eq_zero_iff, wcopyRange, wexpRange, roundRange, decide_eq_true_eq,
    seqIndex_toNat, Phase.idle_toNat, Phase.sched_toNat, Phase.loadv_toNat, Phase.round_toNat, Phase.fold_toNat, idle, copy,
    expand, load, rounds, fold]
  split_ifs with _ hc he _ hr
  · rfl
  · rw [seqIndex_eq_sub (p := 1) hc.1]
  · rw [seqIndex_eq_sub (p := 1) (by omega)]
  · rfl
  · rw [seqIndex_eq_sub (p := 3) hr.1]
  · rfl
  · rfl

/-- R77: the 27 legal codes. -/
theorem decodeCommand_isSome_iff (op : BitVec 8) (d : Word) : (decodeCommand ⟨op, d⟩).toOption.isSome = true ↔
    op.toNat = 0x10 ∨ (0x20 ≤ op.toNat ∧ op.toNat ≤ 0x2F) ∨ op.toNat = 0x30 ∨ (0x40 ≤ op.toNat ∧ op.toNat ≤ 0x47) ∨
      op.toNat = 0x50 := by
  rw [decodeCommand_eq_map]
  split_ifs <;>
    simp only [Except.toOption, Option.isSome_some, Option.isSome_none, Bool.false_eq_true, true_iff, false_iff] <;> omega

/-- R80: the 162 values of SEQ that select a micro-step. -/
theorem decodeSeq_isSome_iff (q : BitVec 10) : (decodeSeq q).toOption.isSome = true ↔
    (0x080 ≤ q.toNat ∧ q.toNat ≤ 0x0CF) ∨ q.toNat = 0x100 ∨ (0x180 ≤ q.toNat ∧ q.toNat ≤ 0x1CF) ∨ q.toNat = 0x200 := by
  rw [decodeSeq_eq_map]
  split_ifs <;>
    simp only [Except.toOption, Option.isSome_some, Option.isSome_none, Bool.false_eq_true, true_iff, false_iff] <;> omega

end Sys2Proof.Machine
end

section
/-! PROOF. The match/mask rows of the table (spec/30_encoding.md R77, R80) as intervals of the number in OP or SEQ: they do not
overlap, and the ones that select a code are those of the instruction it decodes to. -/

namespace Sys2Proof

open Machine


/-- A mask of the upper bits clears the lower ones. -/
theorem and_upper_mask {n w k : Nat} (hn : n < 2 ^ w) (hk : k ≤ w) : n &&& (2 ^ w - 2 ^ k) = n / 2 ^ k * 2 ^ k := by
  have mask : 2 ^ w - 2 ^ k = (2 ^ (w - k) - 1) * 2 ^ k := by
    rw [Nat.sub_mul, ← Nat.pow_add, Nat.sub_add_cancel hk, Nat.one_mul]
  apply Nat.eq_of_testBit_eq
  intro j
  rw [mask, Nat.testBit_and, Nat.testBit_mul_two_pow, Nat.testBit_two_pow_sub_one, Nat.testBit_mul_two_pow,
    Nat.testBit_div_two_pow]
  by_cases hkj : k ≤ j
  · by_cases hjw : j < w
    · simp [hkj, show j - k < w - k by omega]
    · have above : n.testBit j = false :=
        Nat.testBit_lt_two_pow (hn.trans_le (Nat.pow_le_pow_right (by decide) (Nat.le_of_not_lt hjw)))
      simp [hkj, above]
  · simp [hkj]

/-- A match/mask pair whose mask is of upper bits selects an interval. -/
theorem and_upper_mask_eq_iff {n w k P : Nat} (hn : n < 2 ^ w) (hk : k ≤ w) (hP : 2 ^ k ∣ P) :
    n &&& (2 ^ w - 2 ^ k) = P ↔ P ≤ n ∧ n < P + 2 ^ k := by
  obtain ⟨p, rfl⟩ := hP
  have hpos : 0 < 2 ^ k := by positivity
  rw [and_upper_mask hn hk, Nat.mul_comm, Nat.mul_right_inj hpos.ne', Nat.div_eq_iff hpos, Nat.mul_comm]
  omega

/-- The number of bits of the codes that a row is about (R77, R80). -/
def TableRow.width (r : TableRow) : Nat := if r.command then 8 else 10

/-- The row's interval: from its match value on, as many codes as the mask leaves open. -/
def TableRow.covers (r : TableRow) (n : Nat) : Prop := r.pattern ≤ n ∧ n + r.mask < r.pattern + 2 ^ r.width

/-- R77, R80: every mask of the table is of upper bits. -/
theorem opcodeTable_masks : ∀ r ∈ opcodeTable, ∃ k ≤ r.width, r.mask = 2 ^ r.width - 2 ^ k ∧ 2 ^ k ∣ r.pattern := by decide

theorem and_mask_eq_pattern_iff {r : TableRow} (hr : r ∈ opcodeTable) {n : Nat} (hn : n < 2 ^ r.width) :
    n &&& r.mask = r.pattern ↔ r.covers n := by
  obtain ⟨k, hk, hmask, hdvd⟩ := opcodeTable_masks r hr
  have hle : 2 ^ k ≤ 2 ^ r.width := Nat.pow_le_pow_right (by decide) hk
  rw [TableRow.covers, hmask, and_upper_mask_eq_iff hn hk hdvd]
  omega

/-- The space and the number that a row of the table looks at: OP, or SEQ. -/
def codeNumber : Code → Bool × Nat
  | .command c => (true, c.op.toNat)
  | .seq q => (false, q.toNat)

theorem selects_iff {r : TableRow} (hr : r ∈ opcodeTable) (c : Code) :
    r.selects c = true ↔ r.command = (codeNumber c).1 ∧ r.covers (codeNumber c).2 := by
  cases c with
  | command c =>
    rw [TableRow.selects, Bool.and_eq_true, beq_iff_eq]
    refine and_congr_right fun hc => and_mask_eq_pattern_iff hr ?_
    rw [TableRow.width, if_pos hc]
    exact c.op.isLt
  | seq q =>
    rw [TableRow.selects, Bool.and_eq_true, beq_iff_eq, Bool.not_eq_true']
    refine and_congr_right fun hc => and_mask_eq_pattern_iff hr ?_
    rw [TableRow.width, hc, if_neg Bool.false_ne_true]
    exact q.isLt

/-- R77, R80: the rows of one space do not overlap. -/
theorem opcodeTable_disjoint : ∀ r ∈ opcodeTable, ∀ r' ∈ opcodeTable, r.command = r'.command →
    r = r' ∨ r.pattern + 2 ^ r.width ≤ r'.pattern + r.mask ∨ r'.pattern + 2 ^ r'.width ≤ r.pattern + r'.mask := by decide

theorem selects_unique {r r' : TableRow} (hr : r ∈ opcodeTable) (hr' : r' ∈ opcodeTable) {c : Code}
    (h : r.selects c = true) (h' : r'.selects c = true) : r = r' := by
  obtain ⟨hspace, hlo, hhi⟩ := (selects_iff hr c).mp h
  obtain ⟨hspace', hlo', hhi'⟩ := (selects_iff hr' c).mp h'
  rcases opcodeTable_disjoint r hr r' hr' (hspace.trans hspace'.symm) with he | hlt | hlt
  · exact he
  · omega
  · omega

theorem filter_selects_of {r : TableRow} (hr : r ∈ opcodeTable) {c : Code} (h : r.selects c = true) :
    (opcodeTable.filter fun r => r.selects c) = [r] := by
  have only : ∀ r' ∈ opcodeTable, r'.selects c = (r' == r) := by
    intro r' hr'
    rw [Bool.eq_iff_iff, beq_iff_eq]
    exact ⟨fun h' => selects_unique hr' hr h' h, fun he => he ▸ h⟩
  have once : opcodeTable.count r = 1 := List.count_eq_one_of_mem (by decide) hr
  rw [List.filter_congr only, List.filter_beq, once, List.replicate_one]

/-- R77: the rows of the commands lie in the legal codes. -/
theorem commandRows_legal : ∀ r ∈ opcodeTable, r.command = true →
    (r.mask = 0xFF ∧ (r.pattern = 0x10 ∨ r.pattern = 0x30 ∨ r.pattern = 0x50)) ∨
    (0x20 ≤ r.pattern ∧ r.pattern + 0x100 ≤ 0x30 + r.mask) ∨ (0x40 ≤ r.pattern ∧ r.pattern + 0x100 ≤ 0x48 + r.mask) := by
  decide

/-- R80: the rows of the micro-steps lie in the values of SEQ that select one. -/
theorem seqRows_legal : ∀ r ∈ opcodeTable, r.command = false →
    (r.mask = 0x3FF ∧ (r.pattern = 0x100 ∨ r.pattern = 0x200)) ∨
    (0x080 ≤ r.pattern ∧ r.pattern + 0x400 ≤ 0x0D0 + r.mask) ∨ (0x180 ≤ r.pattern ∧ r.pattern + 0x400 ≤ 0x1D0 + r.mask) := by
  decide

/-- R77, R80: a code that a row selects is legal. -/
theorem decode_isSome_of_selects {r : TableRow} (hr : r ∈ opcodeTable) {c : Code} (h : r.selects c = true) :
    (decode c).toOption.isSome = true := by
  obtain ⟨hspace, hlo, hhi⟩ := (selects_iff hr c).mp h
  cases c with
  | command c =>
    simp only [codeNumber, TableRow.width, hspace, if_true] at hlo hhi
    have hrow := commandRows_legal r hr hspace
    rw [decode, decodeCommand_isSome_iff]
    omega
  | seq q =>
    simp only [codeNumber, TableRow.width, hspace, Bool.false_eq_true, if_false] at hlo hhi
    have hrow := seqRows_legal r hr hspace
    rw [decode, decodeSeq_isSome_iff]
    omega

theorem encodedRow (i : Instr) : Laws.EncodedRow.Statement i := by
  cases i with
  | init => exact Laws.EncodedRow.init
  | wrblk k v => exact Laws.EncodedRow.wrblk k v
  | next => exact Laws.EncodedRow.next
  | rddig k => exact Laws.EncodedRow.rddig k
  | rdstat => exact Laws.EncodedRow.rdstat
  | wcopy t => exact Laws.EncodedRow.wcopy t
  | wexp t => exact Laws.EncodedRow.wexp t
  | loadv => exact Laws.EncodedRow.loadv
  | round t => exact Laws.EncodedRow.round t
  | fold => exact Laws.EncodedRow.fold

/-- R77, R80: a legal code is selected by a row of its instruction. -/
theorem exists_selecting_row {c : Code} {i : Instr} (h : decode c = .ok i) :
    ∃ r ∈ opcodeTable, r.mnemonic = i.mnemonic ∧ r.selects c = true := by
  cases c with
  | command c =>
    obtain ⟨hw, d, he, _⟩ := encode_of_decodeCommand h
    obtain ⟨r, hr, hm, hsel⟩ := encodedRow i hw
    rw [he] at hsel
    exact ⟨r, hr, hm, hsel⟩
  | seq q =>
    obtain ⟨s, rfl⟩ := exists_state_seq q
    obtain ⟨hw, he⟩ := encode_of_decodeSeq h
    rw [← he]
    exact encodedRow i hw

/-- R77, R80: the rows that select a code are the one row of the instruction it decodes to. -/
theorem selecting_rows (c : Code) :
    (opcodeTable.filter fun r => r.selects c).map TableRow.mnemonic = ((decode c).toOption.map Instr.mnemonic).toList := by
  cases hd : decode c with
  | ok i =>
    obtain ⟨r, hr, hm, hsel⟩ := exists_selecting_row hd
    rw [filter_selects_of hr hsel, List.map_singleton, hm]
    rfl
  | error e =>
    have none_selects : (opcodeTable.filter fun r => r.selects c) = [] := by
      rw [List.filter_eq_nil_iff]
      intro r hr hsel
      have := decode_isSome_of_selects hr hsel
      rw [hd] at this
      cases this
    rw [none_selects]
    rfl

/-- Settles O3: the map by value, the rows, and the 27 legal codes counted. -/
theorem commandMapIsTheTable : Obligations.CommandMapIsTheTable := by
  unfold Obligations.CommandMapIsTheTable
  exact ⟨decodeCommand_eq_map, fun op d => selecting_rows (.command ⟨op, d⟩), by decide⟩

/-- R80: the 162 values of SEQ, counted: eighty of SCHED, eighty of ROUND, LOADV and FOLD. -/
theorem count_decodeSeq :
    ((List.range 1024).filter fun n => (decodeSeq (BitVec.ofNat 10 n)).toOption.isSome).length = 162 := by
  have values : ((List.range 1024).filter fun n => (decodeSeq (BitVec.ofNat 10 n)).toOption.isSome).toFinset =
      Finset.Icc 0x080 0x0CF ∪ (Finset.Icc 0x180 0x1CF ∪ {0x100, 0x200}) := by
    ext n
    simp only [List.mem_toFinset, List.mem_filter, List.mem_range, decodeSeq_isSome_iff, BitVec.toNat_ofNat,
      Finset.mem_union, Finset.mem_Icc, Finset.mem_insert, Finset.mem_singleton]
    omega
  have rounds_apart : Disjoint (Finset.Icc 0x180 0x1CF) ({0x100, 0x200} : Finset Nat) := by simp
  have sched_apart : Disjoint (Finset.Icc 0x080 0x0CF) (Finset.Icc 0x180 0x1CF ∪ {0x100, 0x200} : Finset Nat) := by
    rw [Finset.disjoint_left]
    simp only [Finset.mem_union, Finset.mem_Icc, Finset.mem_insert, Finset.mem_singleton]
    omega
  rw [← List.toFinset_card_of_nodup (List.nodup_range.filter _), values, Finset.card_union_of_disjoint sched_apart,
    Finset.card_union_of_disjoint rounds_apart]
  rfl

/-- Settles O4: the map by value, the rows, the 162 values counted, and R37 (a), (b) of a legal state. -/
theorem sequencerValueSelectsTheMicroStep : Obligations.SequencerValueSelectsTheMicroStep := by
  unfold Obligations.SequencerValueSelectsTheMicroStep
  refine ⟨decodeSeq_eq_map, fun q => selecting_rows (.seq q), count_decodeSeq, fun s hl => ⟨fun hb => ?_, ?_⟩⟩
  · exact exists_microStep hl.1 hl.2.1 hb
  · rintro ⟨i, hi⟩ hp
    have hidle := decodeSeq_idle hp (hl.2.1.2 (.inl hp))
    cases hidle.symm.trans hi

end Sys2Proof
end

section
/-! PROOF. Commands on the channel (spec/30_encoding.md R71, R73, R78): when an offered command is accepted, what an accepted one
does, legal or illegal, and that a held one does nothing; and a micro-step that SEQ does not select. -/

namespace Sys2Proof.Machine

variable {s s' : State} {i : Instr} {c : Command} {rest : List Command}

/-! ### The accepted command -/

/-- R80: in IDLE no micro-step is enabled. -/
theorem decodeSeq_ne_ok_of_idle (hp : s.phase = Phase.idle) (i : Instr) : decodeSeq s.seq ≠ .ok i := by
  intro hi
  rcases decodeSeq_ok_cases hi with ⟨_, hq, _⟩ | ⟨_, hq, _⟩ | ⟨_, hq, _⟩ | ⟨_, hq, _⟩ | ⟨_, hq, _⟩ <;>
    cases hp.symm.trans hq

theorem HostTurn.noReset (h : HostTurn s) : NoReset s := by
  intro n ts ht
  rcases h with ⟨h, _⟩ | ⟨_, h⟩ <;> cases ht.symm.trans h

theorem EngineTurn.noReset (h : EngineTurn s) : NoReset s := by
  intro n ts ht
  rcases h with ⟨h, _⟩ | ⟨_, h⟩ <;> cases ht.symm.trans h

/-- Settles O6: the host's turn looks at the offer, and so does the engine's where no micro-step is enabled. -/
theorem stepRunsTheAcceptedCommand : Obligations.StepRunsTheAcceptedCommand := by
  unfold Obligations.StepRunsTheAcceptedCommand
  intro s c rest i hturn hseq hc hready hd
  have looks : select s = selectHost { s with turns := s.turns.tail } := by
    rcases hturn with hturn | ⟨hturn, hp⟩
    · exact select_of_host hturn
    · exact select_of_not_ok hturn.noReset (decodeSeq_ne_ok_of_idle hp)
  apply step_of_run
  rw [looks, selectHost_of_ready (s := { s with turns := s.turns.tail }) hseq hc hready, acceptCommand, hd]

/-- R73, R145: on the host's turn a poll is accepted in every phase. -/
theorem step_poll (h : HostTurn s) (hseq : seqDefined s.seq = true) (hc : s.cmds = c :: rest) (hop : c.op = 0x50#8) :
    step s = .next { s with cmds := rest, turns := s.turns.tail, rsp := some s.status } :=
  stepRunsTheAcceptedCommand s c rest .rdstat (.inl h) hseq hc (by simp [cmdReady, hop]) (decodeCommand_poll hop)

theorem exec_keeps_cmds (h : exec i s = .next s') : s'.cmds = s.cmds := by
  obtain ⟨_, _, _, _, _, _, _, _, _, _, _, hcmds, _⟩ := everyInstructionKeepsWhatItDoesNotWrite i s s' h
  exact hcmds

/-- R78, R184: an illegal command accepted in IDLE. -/
theorem illegalCommand_of_idle (hp : s.phase = Phase.idle) :
    illegalCommand s = .next ((s.raiseProtocolError .illegalCommand).respond none) :=
  whenIdle_of_idle hp _

/-- R78: in (IDLE, 0) the step takes the protocol error of an illegal offer. -/
theorem step_of_idle_illegal {e : DecodeError} (hn : NoReset s) (hp : s.phase = Phase.idle) (h0 : s.t = 0#7)
    (hc : s.cmds = c :: rest) (hd : decodeCommand c = .error e) :
    step s = .next ((State.raiseProtocolError { s with cmds := rest, turns := s.turns.tail } .illegalCommand).respond none) := by
  rw [step, select_of_idle_offer hn hp h0 hc, acceptCommand, hd]
  exact illegalCommand_of_idle (s := { s with cmds := rest, turns := s.turns.tail }) hp

/-- R71: in (IDLE, 0) the offered command is taken off the channel, legal or illegal. -/
theorem step_of_idle_takes_offer (hn : NoReset s) (hp : s.phase = Phase.idle) (h0 : s.t = 0#7) (hc : s.cmds = c :: rest) :
    ∃ s', step s = .next s' ∧ s'.cmds = rest := by
  cases hd : decodeCommand c with
  | ok i =>
    obtain ⟨s', he⟩ := exec_command_total (decodeCommand_isCommand hd) { s with cmds := rest, turns := s.turns.tail }
    exact ⟨s', (step_of_idle_command hn hp h0 hc hd).trans he, exec_keeps_cmds he⟩
  | error e => exact ⟨_, step_of_idle_illegal hn hp h0 hc hd, rfl⟩

/-! ### The held command -/

/-- R73: while BUSY an offer that is no poll stays, and the step is a micro-step. -/
theorem step_of_held (hn : NoReset s) (hb : s.phase ≠ Phase.idle) (hc : s.cmds = c :: rest) (hop : c.op ≠ 0x50#8)
    (h : step s = .next s') : MicroStep { s with turns := s.turns.tail } s' := by
  rcases step_cases h with ⟨n, ts, ht, _⟩ |
    ⟨_, ts, rfl, ⟨d, ds, i, hd, hready, _⟩ | ⟨d, ds, e, hd, hready, _⟩ | ⟨i, hi, he⟩ | ⟨hp, _⟩⟩
  · exact absurd ht (hn n ts)
  · cases hc.symm.trans hd
    exact absurd ((cmdReady_busy hb _).mp hready) hop
  · cases hc.symm.trans hd
    exact absurd ((cmdReady_busy hb _).mp hready) hop
  · exact microStep_of_exec hi he
  · exact absurd hp hb

/-- Settles O9: acceptance in IDLE, the poll, and the held command. -/
theorem commandsAreAcceptedOrHeld : Obligations.CommandsAreAcceptedOrHeld := by
  unfold Obligations.CommandsAreAcceptedOrHeld
  refine ⟨fun p op => by simp [cmdReady], ?_, ?_, ?_⟩
  · exact fun s c rest hn hp h0 hc => step_of_idle_takes_offer hn hp h0 hc
  · exact fun s d rest hturn hseq hc => step_poll hturn hseq hc rfl
  · intro s s' c rest hn hb hc hop h
    have hm := step_of_held hn hb hc hop h
    exact ⟨hm.cmds, hm.ERR, hm.ECODE, hm.HINIT, hm.M, hm.rsp⟩

/-- R77, R78: a code is illegal exactly where the decoder answers no command. -/
theorem decodeCommand_illegal_iff (op : BitVec 8) (d : Word) :
    decodeCommand ⟨op, d⟩ = .error (.illegalCommand op) ↔
      (op.toNat ≤ 0x0F ∨ (0x11 ≤ op.toNat ∧ op.toNat ≤ 0x1F) ∨ (0x31 ≤ op.toNat ∧ op.toNat ≤ 0x3F) ∨
        (0x48 ≤ op.toNat ∧ op.toNat ≤ 0x4F) ∨ 0x51 ≤ op.toNat) := by
  rw [decodeCommand_eq_map]
  split_ifs <;> simp only [false_iff, true_iff] <;> omega

/-- Settles O10: the illegal codes, the accepted one, and the held one, which is no poll since a poll is legal. -/
theorem illegalCommandOnlyRecordsErrorOne : Obligations.IllegalCommandOnlyRecordsErrorOne := by
  unfold Obligations.IllegalCommandOnlyRecordsErrorOne
  refine ⟨decodeCommand_illegal_iff, fun s c rest e hn hp h0 hc hd => step_of_idle_illegal hn hp h0 hc hd, ?_⟩
  intro s c rest e hb hc hd
  rw [Bool.eq_false_iff, ne_eq, cmdReady_busy hb]
  intro hop
  cases (decodeCommand_poll hop).symm.trans hd

/-- R73: every command but RDSTAT takes its effect in IDLE only. -/
theorem exec_command_eq_whenIdle (hi : i.isCommand = true) (hne : i ≠ .rdstat) :
    ∃ effect, ∀ s, exec i s = whenIdle s effect := by
  cases i with
  | init => exact ⟨_, fun _ => rfl⟩
  | wrblk k v => exact ⟨_, fun _ => rfl⟩
  | next => exact ⟨_, fun _ => rfl⟩
  | rddig k => exact ⟨_, fun _ => rfl⟩
  | rdstat => exact absurd rfl hne
  | wcopy t => cases hi
  | wexp t => cases hi
  | loadv => cases hi
  | round t => cases hi
  | fold => cases hi

/-- Settles O17: all of these have their effect only in IDLE. -/
theorem heldCommandsChangeNothing : Obligations.HeldCommandsChangeNothing := by
  unfold Obligations.HeldCommandsChangeNothing
  intro i s hb hi hne
  obtain ⟨effect, he⟩ := exec_command_eq_whenIdle hi hne
  exact ⟨(he s).trans (whenIdle_of_busy hb effect), whenIdle_of_busy hb _⟩

/-! ### The micro-step that SEQ does not select -/

/-- R80: every micro-step takes its effect where SEQ is its code, its index being legal. R208: the effect does not look at the
offers. -/
theorem exec_microStep_eq_whenSelected (hi : i.isCommand = false) :
    ∃ p n effect, encode i = .seq (p ++ n) ∧ (∀ s, exec i s = whenSelected s p n i.wellFormed effect) ∧
      ∀ (s : State) cs, effect { s with cmds := cs } = { effect s with cmds := cs } := by
  cases i with
  | init => cases hi
  | wrblk k v => cases hi
  | next => cases hi
  | rddig k => cases hi
  | rdstat => cases hi
  | wcopy t => exact ⟨_, _, _, rfl, fun _ => rfl, fun _ _ => rfl⟩
  | wexp t => exact ⟨_, _, _, rfl, fun _ => rfl, fun _ _ => by dsimp only; split <;> rfl⟩
  | loadv => exact ⟨_, _, _, rfl, fun _ => rfl, fun _ _ => rfl⟩
  | round t => exact ⟨_, _, _, rfl, fun _ => rfl, fun _ _ => by dsimp only; split <;> rfl⟩
  | fold => exact ⟨_, _, _, rfl, fun _ => rfl, fun _ _ => rfl⟩

/-- Settles O26: the state whose SEQ is the code of a legal micro-step selects it. -/
theorem unselectedMicroStepStops : Obligations.UnselectedMicroStepStops := by
  unfold Obligations.UnselectedMicroStepStops
  intro i s hi hne
  obtain ⟨p, n, effect, hcode, hexec, _⟩ := exec_microStep_eq_whenSelected hi
  rw [hexec, whenSelected, if_neg]
  rintro ⟨rfl, rfl, hw⟩
  have selected := encodeThenDecodeGivesTheInstruction i hw
  rw [hcode] at selected
  exact hne selected

end Sys2Proof.Machine
end

section
/-! PROOF. Runs without end (spec/70_reset_and_hazards.md R211, R213): while no reset is taken, the micro-steps taken and those left
make up the same number, a fair run does not stay BUSY for ever, and a held command waits until the phase is IDLE. -/

namespace Sys2Proof.Machine

theorem noReset_of_takesReset {s : State} (h : takesReset s = false) : NoReset s := by
  intro n ts ht
  have hq : select s = .reset n { s with turns := ts } := by rw [select, ht]
  rw [takesReset, hq] at h
  cases h

/-- R27: a step of a BUSY engine that is no reset leaves one micro-step fewer if it is one, and else as many. -/
theorem step_busy_left {s s' : State} (hl : ControlLegal s) (hb : s.phase ≠ Phase.idle) (hn : NoReset s)
    (h : step s = .next s') : (if takesMicroStep s then 1 else 0) + microStepsLeft s' = microStepsLeft s := by
  rcases step_busy hl hb hn with ⟨c, rest, _, _, ht, hs⟩ | ⟨u, ht, hs, hm⟩
  · obtain rfl := Host.Outcome.next.inj (hs.symm.trans h)
    rw [ht]
    exact Nat.zero_add _
  · obtain rfl := Host.Outcome.next.inj (hs.symm.trans h)
    rw [ht, if_pos rfl, Nat.add_comm]
    exact hm.left

section
variable {inputs : Nat → List Command × List Turn} {states : Nat → State} {n k : Nat}

/-- R213: no reset is taken at step `n` or later. -/
def NoResetFrom (inputs : Nat → List Command × List Turn) (states : Nat → State) (n : Nat) : Prop :=
  ∀ j, n ≤ j → NoReset ((states j).feed (inputs j))

/-- R28: the engine is BUSY at step `n` and after it, for `k` steps. -/
def BusyFor (states : Nat → State) (n k : Nat) : Prop := ∀ j, n ≤ j → j < n + k → (states j).phase ≠ Phase.idle

theorem BusyFor.pred (h : BusyFor states n (k + 1)) : BusyFor states n k :=
  fun j hj hlt => h j hj (Nat.lt_succ_of_lt hlt)

theorem BusyFor.last (h : BusyFor states n (k + 1)) : (states (n + k)).phase ≠ Phase.idle :=
  h (n + k) (Nat.le_add_right n k) (Nat.lt_succ_self _)

/-- How many of the `k` steps from step `n` on are micro-steps. -/
def microStepsTaken (inputs : Nat → List Command × List Turn) (states : Nat → State) (n k : Nat) : Nat :=
  ((List.range k).filter fun j => takesMicroStep ((states (n + j)).feed (inputs (n + j)))).length

theorem microStepsTaken_succ : microStepsTaken inputs states n (k + 1) =
    microStepsTaken inputs states n k + if takesMicroStep ((states (n + k)).feed (inputs (n + k))) then 1 else 0 := by
  rw [microStepsTaken, List.range_succ, List.filter_append, List.length_append, ← microStepsTaken]
  split <;> simp [*]

/-- R37: what the environment adds is no part of the control state, so it is legal at every step. -/
theorem OpenRun.control (hrun : OpenRun inputs states) (h0 : ControlLegal (states 0)) (n : Nat) :
    ControlLegal (states n) := by
  induction n with
  | zero => exact h0
  | succ n ih =>
    have fed : ControlLegal ((states n).feed (inputs n)) := ih
    exact step_keeps_control (hrun n) fed

/-- R208: the environment adds behind what is offered already. -/
theorem feed_cmds {s : State} {c : Command} {cs : List Command} (hc : s.cmds = c :: cs)
    (x : List Command × List Turn) : (s.feed x).cmds = c :: (cs ++ x.1) := by
  rw [State.feed, hc, List.cons_append]

variable (hrun : OpenRun inputs states)
include hrun

theorem OpenRun.step_left (hl : ∀ j, ControlLegal (states j)) (hb : (states n).phase ≠ Phase.idle)
    (hn : NoReset ((states n).feed (inputs n))) :
    (if takesMicroStep ((states n).feed (inputs n)) then 1 else 0) + microStepsLeft (states (n + 1)) =
      microStepsLeft (states n) :=
  step_busy_left (s := (states n).feed (inputs n)) (hl n) hb hn (hrun n)

/-- R27: micro-steps taken and micro-steps left make up the same number while the engine is BUSY. -/
theorem OpenRun.taken_add_left (hl : ∀ j, ControlLegal (states j)) (hn : NoResetFrom inputs states n)
    (hb : BusyFor states n k) :
    microStepsTaken inputs states n k + microStepsLeft (states (n + k)) = microStepsLeft (states n) := by
  induction k with
  | zero => exact Nat.zero_add _
  | succ k ih =>
    calc microStepsTaken inputs states n (k + 1) + microStepsLeft (states (n + (k + 1)))
      _ = microStepsTaken inputs states n k + microStepsLeft (states (n + k)) := by
        rw [microStepsTaken_succ, Nat.add_assoc, ← Nat.add_assoc n k 1,
          hrun.step_left hl hb.last (hn (n + k) (Nat.le_add_right n k))]
      _ = microStepsLeft (states n) := ih hb.pred

/-- R211: a fair run does not stay BUSY for ever, since each micro-step that it must take leaves one fewer. -/
theorem OpenRun.exists_idle (hl : ∀ j, ControlLegal (states j)) (hfair : WeaklyFair inputs states)
    (hn : NoResetFrom inputs states n) : ∃ m, n ≤ m ∧ (states m).phase = Phase.idle := by
  induction hL : microStepsLeft (states n) using Nat.strong_induction_on generalizing n with
  | _ L ih =>
  by_contra never
  have busy : ∀ j, n ≤ j → (states j).phase ≠ Phase.idle := fun j hj hp => never ⟨j, hj, hp⟩
  obtain ⟨m, hnm, htakes⟩ := hfair n fun j hj => (hl j).exists_microStep (busy j hj)
  obtain ⟨k, rfl⟩ := Nat.exists_eq_add_of_le hnm
  have before := hrun.taken_add_left hl hn fun j hj (_ : j < n + k) => busy j hj
  have one_fewer := hrun.step_left hl (busy (n + k) hnm) (hn (n + k) hnm)
  rw [htakes, if_pos rfl] at one_fewer
  have later : NoResetFrom inputs states (n + k + 1) := fun j hj => hn j (by omega)
  obtain ⟨m, hm, hp⟩ := ih _ (by omega) later rfl
  exact busy m (by omega) hp

/-- R73: a held command stays offered while the engine is BUSY. -/
theorem OpenRun.held_stays {c : Command} {rest : List Command} (hn : NoResetFrom inputs states n)
    (hb : BusyFor states n k) (hc : (states n).cmds = c :: rest) (hop : c.op ≠ 0x50#8) :
    ∃ more, (states (n + k)).cmds = c :: (rest ++ more) := by
  induction k with
  | zero => exact ⟨[], by simpa using hc⟩
  | succ k ih =>
    obtain ⟨more, hmore⟩ := ih hb.pred
    have offered := feed_cmds hmore (inputs (n + k))
    have hm := step_of_held (hn (n + k) (Nat.le_add_right n k)) hb.last offered hop (hrun (n + k))
    exact ⟨more ++ (inputs (n + k)).1, hm.cmds.trans (by rw [← List.append_assoc]; exact offered)⟩

end

/-- Settles O54: at the first IDLE step after `n` no micro-step is left, and a held command is still offered. -/
theorem fairRunsReachIdleAndAcceptTheHeldCommand : Obligations.FairRunsReachIdleAndAcceptTheHeldCommand := by
  unfold Obligations.FairRunsReachIdleAndAcceptTheHeldCommand
  intro inputs states hrun h0 hfair n _ hreset
  have hl := hrun.control (legal_iff.mp h0).1
  have hn : NoResetFrom inputs states n := fun j hj => noReset_of_takesReset (hreset j hj)
  have reaches := hrun.exists_idle hl hfair hn
  obtain ⟨m, ⟨hnm, hp⟩, first⟩ := Nat.findX reaches
  obtain ⟨k, rfl⟩ := Nat.exists_eq_add_of_le hnm
  have hb : BusyFor states n k := fun j hj hlt hpj => first j hlt ⟨hj, hpj⟩
  refine ⟨n + k, hnm, hp, hb, ?_, fun c rest hc hop => ?_⟩
  · rw [Nat.add_sub_cancel_left, ← microStepsTaken]
    simpa [left_idle hp] using hrun.taken_add_left hl hn hb
  · obtain ⟨more, hmore⟩ := hrun.held_stays hn hb hc hop
    obtain ⟨u, hs, hcmds⟩ := step_of_idle_takes_offer (hn (n + k) hnm) hp ((hl (n + k)).2.1.2 (.inl hp))
      (feed_cmds hmore (inputs (n + k)))
    obtain rfl := Host.Outcome.next.inj (hs.symm.trans (hrun (n + k)))
    exact ⟨more, hmore, hcmds⟩

end Sys2Proof.Machine
end

section
/-! PROOF. The pseudo-command WAIT (spec/30_encoding.md R83): it ends at the first response with BUSY = 0 under every list of
turns, and where none is given it is the run of its expansion. -/

namespace Sys2Proof.Machine

variable {s s' : State} {fuel : Nat}

/-! ### One turn of WAIT -/

/-- R83: all that a WAIT leaves offered is its own poll, if anything. -/
def PollsOnly (s : State) : Prop := s.cmds = [] ∨ s.cmds = waitCommands 1

/-- R83: the state with the next poll of the WAIT offered. -/
def polling (s : State) : State := { s with cmds := waitCommands 1 }

theorem offerPoll_eq (h : PollsOnly s) : s.offerPoll = polling s := by
  rcases h with h | h
  · rw [State.offerPoll, if_pos h]
    rfl
  · rw [State.offerPoll, h, if_neg (by decide), polling, ← h]

/-- R28, R145: the response of a poll says whether the engine is BUSY. -/
theorem readsIdle_status : readsIdle (some s.status) = !s.busy := by rw [readsIdle, status_bit_busy]

theorem waitRun_done (ho : PollsOnly s) (hs : step (polling s) = .next s') (hr : readsIdle s'.rsp = true) :
    waitRun (fuel + 1) s = some (s'.rsp.toList, s') := by
  simp only [waitRun, offerPoll_eq ho, hs, hr, if_true]

theorem waitRun_more {vs : List Word} {u : State} (ho : PollsOnly s) (hs : step (polling s) = .next s')
    (hr : readsIdle s'.rsp = false) (h : waitRun fuel s' = some (vs, u)) :
    waitRun (fuel + 1) s = some (s'.rsp.toList ++ vs, u) := by
  simp only [waitRun, offerPoll_eq ho, hs, hr, Bool.false_eq_true, if_false, h, Option.map_some]

/-- R145: in (IDLE, 0) the poll is accepted whoever moves first. -/
theorem step_polling_idle (hn : NoReset s) (hp : s.phase = Phase.idle) (h0 : s.t = 0#7) :
    step (polling s) = .next { s with cmds := [], turns := s.turns.tail, rsp := some s.status } :=
  step_of_idle_command (s := polling s) hn hp h0 rfl (decodeCommand_poll rfl)

/-- While BUSY the poll is accepted, unless the engine goes first, or a micro-step is taken. -/
theorem step_polling_busy (hl : ControlLegal s) (hb : s.phase ≠ Phase.idle) (hn : NoReset s) :
    (¬(s.turns = [] ∧ s.rsp.isSome = true) ∧
      step (polling s) = .next { s with cmds := [], turns := s.turns.tail, rsp := some s.status }) ∨
    (∃ s', step (polling s) = .next s' ∧ MicroStep { polling s with turns := s.turns.tail } s') := by
  have hl' : ControlLegal (polling s) := hl
  rcases step_busy hl' hb hn with ⟨c, rest, hc, _, htm, hs⟩ | ⟨s', _, hs, hm⟩
  · obtain ⟨_, rfl⟩ : _ ∧ [] = rest := List.cons.inj hc
    refine .inl ⟨fun h => ?_, hs⟩
    rw [takesMicroStep_of_engineFirst hl' hb (.inl (.inl h))] at htm
    cases htm
  · exact .inr ⟨s', hs, hm⟩

/-! ### WAIT ends -/

/-- R83: within `fuel` steps the WAIT ends, at the first response with BUSY = 0. -/
def WaitEnds (fuel : Nat) (s : State) : Prop :=
  ∃ vs v s', waitRun fuel s = some (vs ++ [v], s') ∧ (∀ x ∈ vs, x.getLsbD 0 = true) ∧ v.getLsbD 0 = false ∧ v = s'.status ∧
    s'.phase = Phase.idle ∧ s'.cmds = []

theorem waitEnds_idle (ho : PollsOnly s) (hn : NoReset s) (hp : s.phase = Phase.idle) (h0 : s.t = 0#7) :
    WaitEnds (fuel + 1) s := by
  have not_busy : s.busy = false := by simp [State.busy, hp]
  have reads : readsIdle (some s.status) = true := by rw [readsIdle_status, not_busy, Bool.not_false]
  refine ⟨[], s.status, _, waitRun_done ho (step_polling_idle hn hp h0) reads, by simp, ?_, rfl, hp, rfl⟩
  rw [status_bit_busy, not_busy]

theorem WaitEnds.more (ho : PollsOnly s) (hs : step (polling s) = .next s') (hr : ∀ v, s'.rsp = some v → v.getLsbD 0 = true)
    (h : WaitEnds fuel s') : WaitEnds (fuel + 1) s := by
  obtain ⟨vs, v, u, hrun, hbusy, hv⟩ := h
  have reads : readsIdle s'.rsp = false := by
    cases hq : s'.rsp with
    | none => rfl
    | some w => rw [readsIdle, hr w hq, Bool.not_true]
  refine ⟨s'.rsp.toList ++ vs, v, u, ?_, fun x hx => ?_, hv⟩
  · rw [waitRun_more ho hs reads hrun, List.append_assoc]
  · rcases List.mem_append.mp hx with hx | hx
    · exact hr x (Option.mem_toList.mp hx)
    · exact hbusy x hx

/-- R201: a reset may withdraw the poll. -/
theorem pollsOnly_resetEvent (n : Nat) (ts : List Turn) : PollsOnly (resetEvent { polling s with turns := ts } n) := by
  cases n with
  | zero => exact .inr rfl
  | succ n => exact .inl List.drop_nil

/-- A bound on the steps of a WAIT but one: a step uses up a turn, a micro-step or an accepted poll. -/
def waitBound (s : State) : Nat := microStepsLeft s + pollBound s

theorem waitBound_le (s : State) : waitBound s ≤ s.turns.length + 324 := by
  have hleft := microStepsLeft_le s
  have hpolls := pollBound_le s
  unfold waitBound
  omega

theorem waitBound_reset {n : Nat} {ts : List Turn} (ht : s.turns = .reset n :: ts) :
    waitBound (resetEvent { polling s with turns := ts } n) < waitBound s := by
  have idle : microStepsLeft (resetEvent { polling s with turns := ts } n) = 0 := left_idle rfl
  have polls : pollBound (resetEvent { polling s with turns := ts } n) ≤ ts.length := by
    simpa [idle] using pollBound_le (resetEvent { polling s with turns := ts } n)
  simp only [waitBound, idle, pollBound, ht, reduceCtorEq, false_and, if_false, List.length_cons] at polls ⊢
  omega

theorem waitBound_poll (hb : 0 < microStepsLeft s) (ht : ¬(s.turns = [] ∧ s.rsp.isSome = true)) :
    waitBound { s with cmds := [], turns := s.turns.tail, rsp := some s.status } < waitBound s :=
  Nat.add_lt_add_left (pollBound_poll [] s.status hb ht) (microStepsLeft s)

theorem waitBound_microStep (hm : MicroStep { polling s with turns := s.turns.tail } s') : waitBound s' < waitBound s :=
  Nat.add_lt_add_of_lt_of_le (Nat.lt_of_succ_le hm.left.le) (pollBound_microStep (s := polling s) hm)

theorem waitEnds (hl : ControlLegal s) (ho : PollsOnly s) (hf : waitBound s < fuel) : WaitEnds fuel s := by
  induction fuel generalizing s with
  | zero => exact absurd hf (Nat.not_lt_zero _)
  | succ fuel ih =>
  have goes_on : ∀ {u : State}, step (polling s) = .next u → PollsOnly u → waitBound u < waitBound s → WaitEnds fuel u :=
    fun hs hou hlt => ih (step_keeps_control hs hl) hou (hlt.trans_le (Nat.le_of_lt_succ hf))
  rcases turn_cases s with ⟨n, ts, ht⟩ | hturn
  · have hs : step (polling s) = .next (resetEvent { polling s with turns := ts } n) := step_of_reset ht
    exact .more ho hs (by simp) (goes_on hs (pollsOnly_resetEvent n ts) (waitBound_reset ht))
  have hn : NoReset s := hturn.elim HostTurn.noReset EngineTurn.noReset
  by_cases hp : s.phase = Phase.idle
  · exact waitEnds_idle ho hn hp (hl.2.1.2 (.inl hp))
  rcases step_polling_busy hl hp hn with ⟨ht, hs⟩ | ⟨u, hs, hm⟩
  · refine .more ho hs ?_ (goes_on hs (.inl rfl) (waitBound_poll (hl.left_pos hp) ht))
    rintro _ ⟨⟩
    rw [status_bit_busy, busy_eq_true_iff]
    exact hp
  · exact .more ho hs (by simp [hm.rsp]) (goes_on hs (.inr hm.cmds) (waitBound_microStep hm))

/-- Settles O56: the bound on the steps is 324 and the turns given, and one step more. -/
theorem waitPollsUntilBusyIsZero : Obligations.WaitPollsUntilBusyIsZero := by
  unfold Obligations.WaitPollsUntilBusyIsZero
  intro s hl hc
  have enough : waitBound s < s.turns.length + 325 := Nat.lt_succ_of_le (waitBound_le s)
  obtain ⟨vs, v, s', hrun, hbusy, hv, hstatus, hp, hcmds⟩ := waitEnds (legal_iff.mp hl).1 (.inl hc) enough
  refine ⟨vs, v, s', hrun, hbusy, hv, hstatus, hp, hcmds, ?_⟩
  rw [waitExpansion, hrun, Option.map_some, List.length_append, List.length_singleton]

/-! ### WAIT and its expansion -/

/-- R208: a micro-step runs the same whatever is offered. -/
theorem exec_selected_offers {i : Instr} (hi : decodeSeq s.seq = .ok i) (h : exec i s = .next s') (cs : List Command) :
    exec i { s with cmds := cs } = .next { s' with cmds := cs } := by
  obtain ⟨p, n, effect, _, hexec, hoffers⟩ := exec_microStep_eq_whenSelected (decodeSeq_isCommand hi)
  rw [hexec] at h
  obtain ⟨hp, hn, hw, rfl⟩ := whenSelected_cases h
  rw [hexec, whenSelected_of (s := { s with cmds := cs }) hp hn hw, hoffers]

/-- R145: the state right after an answered poll, `cs` being still offered. -/
def answered (s : State) (cs : List Command) : State :=
  { s with cmds := cs, turns := s.turns.tail, rsp := some s.status }

/-- R73: a host that polls on its turn is answered. -/
theorem step_waitCommands (hl : ControlLegal s) (ht : HostTurn s) (k : Nat) :
    step { s with cmds := waitCommands (k + 1) } = .next (answered s (waitCommands k)) :=
  step_poll (s := { s with cmds := waitCommands (k + 1) }) ht hl.seqDefined rfl rfl

/-- R211: where no turn is given, a micro-step follows an answered poll, the same one whatever is offered. -/
theorem step_answered (hl : ControlLegal s) (hb : s.phase ≠ Phase.idle) (ht : s.turns = []) :
    ∃ v, MicroStep (answered s []) v ∧ ∀ cs, step (answered s cs) = .next { v with cmds := cs } := by
  have turns : (answered s []).turns = [] := by rw [answered, ht, List.tail_nil]
  obtain ⟨i, hi⟩ := hl.exists_microStep hb
  have selected : decodeSeq (answered s []).seq = .ok i := hi
  obtain ⟨v, hv⟩ := exec_selected_total selected
  refine ⟨v, microStep_of_exec selected hv, fun cs => ?_⟩
  have first : EngineFirst (answered s cs) := .inl (.inl ⟨turns, rfl⟩)
  rw [step_of_run (select_of_engineFirst first hi), turns_tail_of_nil (s := answered s cs) turns]
  exact exec_selected_offers selected hv cs

/-- R83: the WAIT with `n + 1` polls, and offering them all at once, with the same responses and the same state after them. -/
def WaitMatches (n : Nat) (s : State) : Prop :=
  ∃ vs s', waitRun (2 * n + 1) s = some (vs, s') ∧ vs.length = n + 1 ∧
    RunsTo (2 * n + 1) { s with cmds := waitCommands (n + 1) } vs s'

theorem waitMatches_idle (ho : PollsOnly s) (hp : s.phase = Phase.idle) (h0 : s.t = 0#7) (ht : s.turns = []) :
    WaitMatches 0 s := by
  have hs := step_polling_idle (noReset_of_nil ht) hp h0
  have reads : readsIdle (some s.status) = true := by simp [readsIdle_status, State.busy, hp]
  exact ⟨[s.status], _, waitRun_done ho hs reads, rfl, (RunsTo.refl _).cons hs⟩

theorem WaitMatches.succ {n : Nat} {v : State} (ho : PollsOnly s) (hb : s.phase ≠ Phase.idle)
    (hpoll : ∀ k, step { s with cmds := waitCommands (k + 1) } = .next (answered s (waitCommands k))) (hv : v.rsp = none)
    (hmicro : ∀ cs, step (answered s cs) = .next { v with cmds := cs }) (h : WaitMatches n (polling v)) :
    WaitMatches (n + 1) s := by
  obtain ⟨vs, s', hwait, hlen, hrun⟩ := h
  have reads : readsIdle (some s.status) = false := by simp [readsIdle_status, State.busy, hb]
  refine ⟨s.status :: vs, s', ?_, congrArg Nat.succ hlen, ?_⟩
  · have polled : waitRun (2 * n + 2) (answered s []) = some (vs, s') := by
      have micro := waitRun_more (s := answered s []) (.inl rfl) (hmicro (waitCommands 1)) (by rw [hv]; rfl) hwait
      simpa only [hv, Option.toList_none, List.nil_append] using micro
    exact waitRun_more ho (hpoll 0) reads polled
  · exact (hrun.cons_silent (hmicro (waitCommands (n + 1))) hv).cons (hpoll (n + 1))

/-- R83: where no turn is given polls and micro-steps alternate. -/
theorem waitMatches (hl : ControlLegal s) (ho : PollsOnly s) (ht : s.turns = []) (hr : s.rsp = none) :
    WaitMatches (microStepsLeft s) s := by
  induction hL : microStepsLeft s generalizing s with
  | zero =>
    have hp : s.phase = Phase.idle := by
      by_contra hb
      exact (hl.left_pos hb).ne' hL
    exact waitMatches_idle ho hp (hl.2.1.2 (.inl hp)) ht
  | succ n ih =>
    have hb : s.phase ≠ Phase.idle := fun hp => by
      rw [left_idle hp] at hL
      cases hL
    obtain ⟨v, hm, hmicro⟩ := step_answered hl hb ht
    have hlv : ControlLegal (polling v) := step_keeps_control (s := answered s (waitCommands 1)) (hmicro _) hl
    have turns : v.turns = [] := by rw [hm.turns, answered, ht, List.tail_nil]
    have left : microStepsLeft v + 1 = n + 1 := hm.left.trans hL
    exact .succ ho hb (step_waitCommands hl (.inl ⟨ht, hr⟩)) hm.rsp hmicro (ih hlv (.inr rfl) turns hm.rsp (Nat.succ.inj left))

/-- Settles O57: the run with the responses of `waitMatches`. -/
theorem waitIsItsExpansion : Obligations.WaitIsItsExpansion := by
  unfold Obligations.WaitIsItsExpansion
  intro s hl hc ht hr
  obtain ⟨vs, s', hwait, hlen, hrun, hout⟩ := waitMatches (legal_iff.mp hl).1 (.inl hc) ht hr
  exact ⟨vs, s', hwait, hlen, hrun, hout⟩

end Sys2Proof.Machine
end

section
/-! PROOF. The mixing functions (spec/40_mixing_functions.md R92 to R99) bit by bit: one rule for each function, from which the
rules of the sigmas follow. -/

namespace Sys2Proof.Machine

variable {i n : Nat}

/-! ### Rotation and shift (R92, R93) -/

/-- R92: the low 64 - n bits come from above, the others wrap around. -/
theorem rotr_getLsbD (x : Word) (hn : n < 64) (hi : i < 64) : (rotr x n).getLsbD i = x.getLsbD ((i + n) % 64) := by
  rw [rotr, BitVec.getLsbD_rotateRight, Bool.cond_decide, Nat.mod_eq_of_lt hn]
  split
  next low => rw [Nat.mod_eq_of_lt (by omega), Nat.add_comm]
  next wrapped =>
    have source : (i + n) % 64 = i - (64 - n) := by omega
    rw [source, decide_eq_true hi, Bool.true_and]

/-- R93: the bits that would come from above bit 63 are zeros. -/
theorem shr_getLsbD (x : Word) (hn : n < 64) (i : Nat) :
    (shr x n).getLsbD i = (decide (i ≤ 63 - n) && x.getLsbD (i + n)) := by
  rw [shr, BitVec.getLsbD_ushiftRight, Nat.add_comm]
  by_cases inside : i ≤ 63 - n
  · rw [decide_eq_true inside, Bool.true_and]
  · rw [decide_eq_false inside, Bool.false_and, BitVec.getLsbD_of_ge _ _ (by omega)]

/-- Settles O44: the rules of the rotation and the shift. -/
theorem rotationAndShiftBitByBit : Obligations.RotationAndShiftBitByBit := by
  unfold Obligations.RotationAndShiftBitByBit
  intro x n _ hn i hi
  rw [Bool.if_false_right]
  exact ⟨rotr_getLsbD x hn hi, shr_getLsbD x hn i⟩

/-! ### Choice and majority (R94, R95) -/

/-- R94: the bit of `x` chooses between the bits of `y` and `z`. -/
theorem ch_getLsbD (x y z : Word) (hi : i < 64) :
    (ch x y z).getLsbD i = if x.getLsbD i then y.getLsbD i else z.getLsbD i := by
  rw [ch, BitVec.getLsbD_xor, BitVec.getLsbD_and, BitVec.getLsbD_and, BitVec.getLsbD_not, decide_eq_true hi]
  cases x.getLsbD i <;> simp

theorem maj_getLsbD (x y z : Word) (i : Nat) :
    (maj x y z).getLsbD i =
      ((x.getLsbD i && y.getLsbD i) ^^ (x.getLsbD i && z.getLsbD i) ^^ (y.getLsbD i && z.getLsbD i)) := by
  simp only [maj, BitVec.getLsbD_xor, BitVec.getLsbD_and]

/-- R95: the formula is the majority of three bits. -/
theorem xor_of_pairs_iff_two_le (a b c : Bool) :
    ((a && b) ^^ (a && c) ^^ (b && c)) = true ↔ 2 ≤ a.toNat + b.toNat + c.toNat := by
  revert a b c
  decide

/-- Settles O45: the formulas are the definitions, and the bits are those of `ch_getLsbD` and `maj_getLsbD`. -/
theorem chooseAndMajorityBitByBit : Obligations.ChooseAndMajorityBitByBit := by
  unfold Obligations.ChooseAndMajorityBitByBit
  intro x y z
  refine ⟨rfl, rfl, fun i hi => ⟨ch_getLsbD x y z hi, ?_⟩⟩
  rw [maj_getLsbD]
  exact xor_of_pairs_iff_two_le _ _ _

/-! ### The sigmas (R96 to R99) -/

/-- R96, R97: a big sigma is three rotations. -/
theorem rotr_xor_rotr_xor_rotr_getLsbD (x : Word) {p q r : Nat} (hp : p < 64) (hq : q < 64) (hr : r < 64) (hi : i < 64) :
    (rotr x p ^^^ rotr x q ^^^ rotr x r).getLsbD i =
      ((x.getLsbD ((i + p) % 64) ^^ x.getLsbD ((i + q) % 64)) ^^ x.getLsbD ((i + r) % 64)) := by
  rw [BitVec.getLsbD_xor, BitVec.getLsbD_xor, rotr_getLsbD x hp hi, rotr_getLsbD x hq hi, rotr_getLsbD x hr hi]

/-- R98, R99: a little sigma is two rotations and a shift. -/
theorem rotr_xor_rotr_xor_shr_getLsbD (x : Word) {p q r : Nat} (hp : p < 64) (hq : q < 64) (hr : r < 64) (hi : i < 64) :
    (rotr x p ^^^ rotr x q ^^^ shr x r).getLsbD i =
      ((x.getLsbD ((i + p) % 64) ^^ x.getLsbD ((i + q) % 64)) ^^ (decide (i ≤ 63 - r) && x.getLsbD (i + r))) := by
  rw [BitVec.getLsbD_xor, BitVec.getLsbD_xor, rotr_getLsbD x hp hi, rotr_getLsbD x hq hi, shr_getLsbD x hr]

/-- Settles O46: each sigma with the three amounts of its rule. -/
theorem sigmasBitByBit : Obligations.SigmasBitByBit := by
  unfold Obligations.SigmasBitByBit
  intro x i hi
  refine ⟨?bigSigma0, ?bigSigma1, ?littleSigma0, ?littleSigma1⟩
  case bigSigma0 => exact rotr_xor_rotr_xor_rotr_getLsbD x (by decide) (by decide) (by decide) hi
  case bigSigma1 => exact rotr_xor_rotr_xor_rotr_getLsbD x (by decide) (by decide) (by decide) hi
  case littleSigma0 => exact rotr_xor_rotr_xor_shr_getLsbD x (by decide) (by decide) (by decide) hi
  case littleSigma1 => exact rotr_xor_rotr_xor_shr_getLsbD x (by decide) (by decide) (by decide) hi

end Sys2Proof.Machine
end

section
/-! PROOF. The words of the two ROMs (spec/41_constants.md R111, R112) are the fractions of roots of primes (R113, of the spec's
general knowledge; log entry 13): which primes come first, and each word behind the integer part of its root. -/

namespace Sys2Proof.Machine

variable {n t p : Nat}

/-! ### The first eighty primes -/

/-- The primes below 410 in their order, which are the first eighty. -/
def firstPrimes : List Nat := [
  2, 3, 5, 7, 11, 13, 17, 19, 23, 29, 31, 37, 41, 43, 47, 53, 59, 61, 67, 71, 73, 79, 83, 89, 97, 101, 103,
  107, 109, 113, 127, 131, 137, 139, 149, 151, 157, 163, 167, 173, 179, 181, 191, 193, 197, 199, 211, 223, 227,
  229, 233, 239, 241, 251, 257, 263, 269, 271, 277, 281, 283, 293, 307, 311, 313, 317, 331, 337, 347, 349, 353,
  359, 367, 373, 379, 383, 389, 397, 401, 409]

/-- The trial divisors, the primes up to 19, decide primality below 21 * 21. -/
abbrev NoSmallFactor (n : Nat) : Prop := 2 ≤ n ∧ ∀ m ∈ firstPrimes.take 8, m < n → ¬ m ∣ n

theorem prime_iff_noSmallFactor (hn : n < 21 ^ 2) : n.Prime ↔ NoSmallFactor n := by
  constructor
  · intro prime
    refine ⟨prime.two_le, fun m hm below => ?_⟩
    have two_le : ∀ m ∈ firstPrimes.take 8, 2 ≤ m := by decide
    exact (Nat.prime_def_lt'.mp prime).2 m (two_le m hm) below
  · rintro ⟨two_le, noFactor⟩
    by_contra composite
    have small : n.minFac < 21 := lt_of_pow_lt_pow_left' 2 ((Nat.minFac_sq_le_self (by omega) composite).trans_lt hn)
    have listed : ∀ m < 21, m.Prime → m ∈ firstPrimes.take 8 := by decide
    have divisor : n.minFac ∈ firstPrimes.take 8 := listed _ small (Nat.minFac_prime (by omega))
    exact noFactor _ divisor ((Nat.not_prime_iff_minFac_lt two_le).mp composite) n.minFac_dvd

theorem filter_prime_range : (List.range 410).filter (fun n => n.Prime) = firstPrimes := by
  have sieve : (List.range 410).filter (fun n => NoSmallFactor n) = firstPrimes := by decide
  rw [← sieve]
  refine List.filter_congr fun n hn => decide_eq_decide.mpr (prime_iff_noSmallFactor ?_)
  exact (List.mem_range.mp hn).trans (by decide)

/-- The place of a number among all those below `n` with a property is the count of those before it. -/
theorem prop_and_count_of_filter_range_getElem? {P : Nat → Prop} [DecidablePred P]
    (h : ((List.range n).filter (fun m => P m))[t]? = some p) : P p ∧ Nat.count P p = t := by
  induction n with
  | zero => simp at h
  | succ n ih =>
    have before : ((List.range n).filter (fun m => P m)).length = Nat.count P n := by
      rw [Nat.count, List.countP_eq_length_filter]
    rw [List.range_succ, List.filter_append, List.getElem?_append, before] at h
    split at h
    next inside => exact ih h
    next last =>
      by_cases hn : P n
      · obtain ⟨place, rfl⟩ : t - Nat.count P n = 0 ∧ n = p := by
          simpa [hn, List.getElem?_singleton] using h
        exact ⟨hn, by omega⟩
      · simp [hn] at h

theorem firstPrimes_getElem? (h : firstPrimes[t]? = some p) : p.Prime ∧ Nat.count Nat.Prime p = t :=
  prop_and_count_of_filter_range_getElem? (filter_prime_range ▸ h)

/-! ### The floor of a root -/

/-- R113: `q` is floor(p^(1/k) * 2^64). -/
abbrev IsScaledRoot (k p q : Nat) : Prop := q ^ k ≤ p * 2 ^ (64 * k) ∧ p * 2 ^ (64 * k) < (q + 1) ^ k

/-- Each word, behind some integer part `c`, is the scaled root of the prime at its place. -/
abbrev HoldsRootFractions (k : Nat) (A : Vector Word n) : Prop :=
  ∀ entry ∈ firstPrimes.zip A.toList, ∃ c < 8, IsScaledRoot k entry.1 (c * 2 ^ 64 + entry.2.toNat)

theorem romK_holdsRootFractions : HoldsRootFractions 3 romK := by decide

theorem romIV_holdsRootFractions : HoldsRootFractions 2 romIV := by decide

theorem HoldsRootFractions.exists_prime {k : Nat} {A : Vector Word n} (holds : HoldsRootFractions k A)
    (ht : t < n) (hn : n ≤ 80) :
    ∃ p q : Nat, p.Prime ∧ Nat.count Nat.Prime p = t ∧ IsScaledRoot k p q ∧ (elem A t).toNat = q % 2 ^ 64 := by
  have listed : t < firstPrimes.length := ht.trans_le hn
  have entry : (firstPrimes[t], A[t]) ∈ firstPrimes.zip A.toList :=
    List.mem_iff_getElem.mpr ⟨t, by simpa [ht] using listed, by simp⟩
  obtain ⟨c, -, root⟩ := holds _ entry
  obtain ⟨prime, count⟩ := firstPrimes_getElem? (List.getElem?_eq_getElem listed)
  refine ⟨firstPrimes[t], c * 2 ^ 64 + A[t].toNat, prime, count, root, ?_⟩
  rw [elem_of_lt A ht]
  omega

/-- Settles O47: both tables hold root fractions of the first primes, of cube roots and of square roots. -/
theorem romWordsAreRootFractions : Obligations.RomWordsAreRootFractions := by
  unfold Obligations.RomWordsAreRootFractions
  constructor
  case left =>
    intro t ht
    obtain ⟨p, q, prime, count, ⟨lower, upper⟩, word⟩ := romK_holdsRootFractions.exists_prime ht (by decide)
    exact ⟨p, q, prime, count, lower, upper, word⟩
  case right =>
    intro i hi
    obtain ⟨p, q, prime, count, ⟨lower, upper⟩, word⟩ := romIV_holdsRootFractions.exists_prime hi (by decide)
    exact ⟨p, q, prime, count, lower, upper, word⟩

end Sys2Proof.Machine
end

section
/-! PROOF. The message schedule (spec/42_message_schedule.md R115 to R119): every step keeps the compression on its track, what WCOPY
and WEXP do, and the SCHED phase as a whole. -/

namespace Sys2Proof.Machine

variable {s s' : State} {i : Instr}

/-! ### Every step keeps the compression on its track (R119, R131, R132) -/

/-- R73, R143: a command changes no tracked word while BUSY; in IDLE it keeps the phase or goes to (SCHED, 0), where no word of the
schedule is written yet. -/
theorem command_keeps_track (hi : i.isCommand = true) (h : exec i s = .next s') (ht : TracksCompress s) :
    TracksCompress s' := by
  cases i with
  | init =>
    rcases exec_init_cases h with ⟨hp, rfl⟩ | ⟨_, rfl⟩
    · exact tracks_idle hp
    · exact ht
  | wrblk k v =>
    rcases exec_wrblk_cases h with ⟨hp, rfl⟩ | ⟨_, rfl⟩
    · exact tracks_idle hp
    · exact ht
  | next =>
    rcases exec_next_cases h with ⟨_, _, rfl⟩ | ⟨hp, _, rfl⟩ | ⟨_, rfl⟩
    · exact tracks_sched rfl fun j hj => absurd hj (Nat.not_lt_zero j)
    · exact tracks_idle hp
    · exact ht
  | rddig k => rcases exec_rddig_cases h with ⟨_, _, rfl⟩ | ⟨_, _, rfl⟩ | ⟨_, rfl⟩ <;> exact ht
  | rdstat =>
    obtain rfl := exec_rdstat_cases h
    exact ht
  | wcopy t => cases hi
  | wexp t => cases hi
  | loadv => cases hi
  | round t => cases hi
  | fold => cases hi

theorem step_keeps_track (h : step s = .next s') (ht : TracksCompress s) : TracksCompress s' := by
  rcases step_cases h with ⟨n, ts, _, rfl⟩ |
    ⟨_, ts, _, ⟨c, rest, i, _, _, hd, he⟩ | ⟨c, rest, e, _, _, _, he⟩ | ⟨i, hi, he⟩ | ⟨_, _, rfl⟩⟩
  · exact tracks_idle rfl
  · exact command_keeps_track (decodeCommand_isCommand hd) he ht
  · rcases illegalCommand_cases he with ⟨_, rfl⟩ | ⟨_, rfl⟩ <;> exact ht
  · exact microStep_keeps_track (s := { s with turns := ts }) he hi ht
  · exact ht

/-- Settles O37: a reset event leads to IDLE, where nothing is tracked; commands and micro-steps keep the track. -/
theorem everyStepKeepsTheCompressionOnTrack : Obligations.EveryStepKeepsTheCompressionOnTrack := by
  unfold Obligations.EveryStepKeepsTheCompressionOnTrack
  exact fun _ _ ht h => step_keeps_track h ht

/-- Settles O35: the words the list of `schedule` is extended by. -/
theorem scheduleSatisfiesTheRecurrence : Obligations.ScheduleSatisfiesTheRecurrence := by
  unfold Obligations.ScheduleSatisfiesTheRecurrence
  exact fun B => ⟨fun _ h15 => elem_schedule_copy B h15, fun _ h16 h79 => elem_schedule_expand B h16 h79⟩

/-! ### WCOPY and WEXP (R115, R116) -/

theorem seq_toNat_of_sched (hp : s.phase = Phase.sched) : s.seq.toNat = 0x080 + s.t.toNat := by
  have phase_bits : s.seq.toNat / 128 = 1 := (seqPhase_eq_iff s.seq Phase.sched).mp (by simp [State.seq, hp])
  have index_bits : s.t.toNat = s.seq.toNat % 128 := by rw [← seqIndex_toNat, State.seq, seqIndex_append]
  omega

/-- R80: where SEQ is the code of a well-formed micro-step, it selects it. -/
theorem decodeSeq_of_encode (hw : i.wellFormed = true) (he : encode i = .seq s.seq) : decodeSeq s.seq = .ok i := by
  simpa [he, decode] using encodeThenDecodeGivesTheInstruction i hw

/-- Settles O21: SEQ is the code of WCOPY t, and its effect is the write of `W[t]`. -/
theorem wcopyCopiesABlockWord : Obligations.WcopyCopiesABlockWord := by
  unfold Obligations.WcopyCopiesABlockWord
  rintro _ s h15 hp rfl
  have hw : wcopyRange s.t = true := decide_eq_true h15
  refine ⟨seq_toNat_of_sched hp, decodeSeq_of_encode hw (by rw [encode, State.seq, hp]), ?_, ?_, ?_⟩
  · rw [exec, execWcopy, whenSelected_of hp rfl hw]
    rfl
  · exact elem_setElem_self s.W (by omega) _
  · exact fun j hj => elem_setElem_of_ne s.W hj.symm _

/-- Settles O22: SEQ is the code of WEXP t, and its effect is the write of `W[t]`; only the successor depends on `t`. -/
theorem wexpExpandsAScheduleWord : Obligations.WexpExpandsAScheduleWord := by
  unfold Obligations.WexpExpandsAScheduleWord
  rintro _ s h16 h79 hp rfl
  have hw : wexpRange s.t = true := decide_eq_true ⟨h16, h79⟩
  refine ⟨seq_toNat_of_sched hp, decodeSeq_of_encode hw (by rw [encode, State.seq, hp]),
    expandWord s.W s.t.toNat, rfl, ?_, ?_, ?_⟩
  · rw [exec, execWexp, whenSelected_of hp rfl hw]
    by_cases hlast : s.t = 79#7
    · simp only [if_pos hlast]
      rfl
    · simp only [if_neg hlast]
      rfl
  · exact elem_setElem_self s.W (by omega) _
  · exact fun j hj => elem_setElem_of_ne s.W hj.symm _

/-! ### The SCHED phase (R119) -/

/-- The state after a micro-step of SCHED that leaves `W` in the schedule: only `W` and SEQ change. -/
def scheduledTo (s : State) (W : Vector Word 80) (p : Phase) (n : BitVec 7) : State :=
  { s with W := W, phase := p, t := n, rsp := none, turns := s.turns.tail }

/-- On the engine's turn a step in SCHED writes `W` and takes SEQ to its successor. -/
theorem step_sched (hp : s.phase = Phase.sched) (h79 : s.t.toNat ≤ 79) (hturn : EngineTurn s) :
    ∃ W, step s = .next (scheduledTo s W (if s.t = 79#7 then Phase.loadv else Phase.sched)
      (if s.t = 79#7 then 0#7 else s.t + 1#7)) := by
  rcases Nat.lt_or_ge 15 s.t.toNat with h16 | h15
  · obtain ⟨_, selected, w, _, effect, _⟩ :=
      wexpExpandsAScheduleWord s.t { s with turns := s.turns.tail } h16 h79 hp rfl
    exact ⟨_, (step_of_run (select_of_engineFirst (.inl hturn) selected)).trans effect⟩
  · obtain ⟨_, selected, effect, _⟩ := wcopyCopiesABlockWord s.t { s with turns := s.turns.tail } h15 hp rfl
    have hne : s.t ≠ 79#7 := fun he => by simp [he] at h15
    rw [if_neg hne, if_neg hne]
    exact ⟨_, (step_of_run (select_of_engineFirst (.inl hturn) selected)).trans effect⟩

/-- From (SCHED, t) on track the micro-steps up to WEXP 79 fill the schedule and change nothing else. -/
theorem run_sched {n : Nat} {ts : List Turn} (hp : s.phase = Phase.sched) (hn : s.t.toNat + n = 79)
    (htrack : TracksCompress s) (hturns : s.turns = List.replicate (n + 1) .engine ++ ts) :
    run (n + 1) s =
      .next { s with W := schedule s.M, phase := Phase.loadv, t := 0#7, rsp := none, turns := ts } := by
  induction n generalizing s with
  | zero =>
    obtain ⟨W, hstep⟩ := step_sched hp (by omega) (.inr ⟨_, hturns⟩)
    have hlast : s.t = 79#7 := BitVec.eq_of_toNat_eq hn
    rw [if_pos hlast, if_pos hlast] at hstep
    obtain ⟨_, hloadv, _⟩ := step_keeps_track hstep htrack
    obtain rfl : W = schedule s.M := hloadv rfl
    rw [run_one hstep, scheduledTo, hturns]
    rfl
  | succ n ih =>
    obtain ⟨W, hstep⟩ := step_sched hp (by omega) (.inr ⟨_, hturns⟩)
    have hmore : s.t ≠ 79#7 := fun he => by simp [he] at hn
    rw [if_neg hmore, if_neg hmore] at hstep
    rw [run_succ_of_step hstep]
    refine ih rfl ?_ (step_keeps_track hstep htrack) ?_
    · change (s.t + 1#7).toNat + n = 79
      rw [index_succ (by omega)]
      omega
    · change s.turns.tail = _
      rw [hturns]
      rfl

/-- Settles O39: at (SCHED, 0) the compression is on its track. -/
theorem schedulePhaseFillsTheSchedule : Obligations.SchedulePhaseFillsTheSchedule := by
  unfold Obligations.SchedulePhaseFillsTheSchedule
  intro s ts hp h0 hturns
  have track : TracksCompress s := tracks_sched hp fun j hj => by simp [h0] at hj
  have hrun := run_sched (n := 79) hp (by rw [h0]; rfl) track hturns
  exact ⟨_, hrun, rfl, fun _ _ => rfl, rfl, rfl, rfl, rfl, rfl, rfl, rfl, rfl⟩

end Sys2Proof.Machine
end

section
/-! PROOF. The compression function (spec/43_compression.md R126 to R131): what LOADV, ROUND and FOLD do, that ROUND performs
`Round`, and that FOLD completes `Compress`. -/

namespace Sys2Proof.Machine

variable {s : State} {p : Phase} {n : BitVec 7}

/-! ### The value of SEQ at a micro-step of the compression (R80) -/

theorem seq_toNat (s : State) : s.seq.toNat = 128 * s.phase.toNat + s.t.toNat := by
  have phase_bits : s.seq.toNat / 128 = s.phase.toNat :=
    (seqPhase_eq_iff s.seq s.phase).mp (by rw [State.seq, seqPhase_append])
  have index_bits : s.seq.toNat % 128 = s.t.toNat := by rw [← seqIndex_toNat, State.seq, seqIndex_append]
  omega

theorem seq_eq_append (hp : s.phase = p) (hn : s.t = n) : s.seq = p ++ n := by rw [State.seq, hp, hn]

/-! ### LOADV, ROUND and FOLD (R126, R127, R130) -/

/-- Settles O23: SEQ is the code of LOADV, and its effect is the write of `V`. -/
theorem loadvLoadsTheWorkingVariables : Obligations.LoadvLoadsTheWorkingVariables := by
  unfold Obligations.LoadvLoadsTheWorkingVariables
  intro s hp h0
  have code : s.seq = Phase.loadv ++ 0#7 := seq_eq_append hp h0
  refine ⟨code, decodeSeq_of_encode rfl (by rw [encode, code]), ?_⟩
  rw [exec, execLoadv, whenSelected_of hp h0 rfl]
  rfl

/-- R127, R128: where SEQ selects it, ROUND t performs `Round` with `K[t]` and `W[t]`; only the successor depends on `t`. -/
theorem exec_round_of (hp : s.phase = Phase.round) (h79 : s.t.toNat ≤ 79) :
    exec (.round s.t) s =
      .next { s with V := roundFn s.V (elem romK s.t.toNat) (elem s.W s.t.toNat),
                     phase := if s.t = 79#7 then Phase.fold else Phase.round,
                     t := if s.t = 79#7 then 0#7 else s.t + 1#7, rsp := none } := by
  have hw : roundRange s.t = true := decide_eq_true h79
  rw [exec, execRound, whenSelected_of hp rfl hw]
  by_cases hlast : s.t = 79#7
  · simp only [if_pos hlast]
    rfl
  · simp only [if_neg hlast]
    rfl

/-- Settles O24: SEQ is the code of ROUND t, and `Round` of the eight values is the tuple of R127. -/
theorem roundUpdatesTheWorkingVariables : Obligations.RoundUpdatesTheWorkingVariables := by
  unfold Obligations.RoundUpdatesTheWorkingVariables
  rintro _ s a b c d e f g h _ _ h79 hp rfl hV rfl rfl
  have code : s.seq.toNat = 0x180 + s.t.toNat := by rw [seq_toNat, hp, Phase.round_toNat]
  refine ⟨code, decodeSeq_of_encode (decide_eq_true h79) (by rw [encode, State.seq, hp]), ?_⟩
  rw [exec_round_of hp h79, hV]
  rfl

theorem foldWords_eq_ofFn (H V : Vector Word 8) :
    foldWords H V = Vector.ofFn fun i : Fin 8 => elem H i.val + elem V i.val := rfl

/-- Settles O25: SEQ is the code of FOLD, and its effect adds `V` into `H` word by word. -/
theorem foldAddsIntoTheHashState : Obligations.FoldAddsIntoTheHashState := by
  unfold Obligations.FoldAddsIntoTheHashState
  intro s hp h0
  have code : s.seq = Phase.fold ++ 0#7 := seq_eq_append hp h0
  refine ⟨code, decodeSeq_of_encode rfl (by rw [encode, code]), ?_⟩
  rw [exec, execFold, whenSelected_of hp h0 rfl, ← foldWords_eq_ofFn]
  rfl

/-! ### ROUND performs `Round`, FOLD completes `Compress` (R128, R131) -/

/-- Settles O36: the first part is the definition of `Round`, the second the effect of ROUND t. -/
theorem roundStepPerformsTheRoundFunction : Obligations.RoundStepPerformsTheRoundFunction := by
  unfold Obligations.RoundStepPerformsTheRoundFunction
  constructor
  · rintro a b c d e f g h k w _ _ rfl rfl
    rfl
  · rintro _ s h79 hp rfl
    exact ⟨_, exec_round_of hp h79, rfl⟩

/-- Settles O38: in FOLD on track `V` holds the working variables after the eighty rounds, and FOLD adds them into `H`. -/
theorem foldCompletesCompress : Obligations.FoldCompletesCompress := by
  unfold Obligations.FoldCompletesCompress
  intro s track hp h0
  obtain ⟨_, _, _, at_fold⟩ := track
  obtain ⟨_, hV⟩ := at_fold hp
  obtain ⟨_, _, effect⟩ := foldAddsIntoTheHashState s hp h0
  have sums : foldWords s.H s.V = compress s.H s.M := by rw [hV, foldWords_eq_compress]
  exact ⟨_, effect, (foldWords_eq_ofFn s.H s.V).symm.trans sums, rfl, rfl, rfl⟩

end Sys2Proof.Machine
end

section
/-! PROOF. The five host commands (spec/44_commands.md R141 to R145): their codes, that all but RDSTAT are accepted only in IDLE, and
what each does there and leaves unchanged. -/

namespace Sys2Proof.Machine

variable {s u : State} {i : Instr} {op : BitVec 8} {d : Word}

/-! ### Codes and acceptance (R73, R77, R79) -/

/-- R79: DATA is an operand of WRBLK alone. -/
theorem decodeCommand_data_ignored (h : opMajor op ≠ 0x2#4) (d d' : Word) : decodeCommand ⟨op, d⟩ = decodeCommand ⟨op, d'⟩ := by
  simp only [decodeCommand, if_neg h]

theorem wrblk_code_eq_append (k : BitVec 4) : 0x20#8 + k.setWidth 8 = 0x2#4 ++ k := by
  revert k
  decide

theorem rddig_code_eq_append (k : BitVec 3) : 0x40#8 + k.setWidth 8 = 0b01000#5 ++ k := by
  revert k
  decide

theorem decodeCommand_wrblk_code (k : BitVec 4) (v : Word) : decodeCommand ⟨0x20#8 + k.setWidth 8, v⟩ = .ok (.wrblk k v) := by
  rw [wrblk_code_eq_append, decodeCommand_hostCommand_wrblk]

theorem decodeCommand_rddig_code (k : BitVec 3) (d : Word) : decodeCommand ⟨0x40#8 + k.setWidth 8, d⟩ = .ok (.rddig k) := by
  have major : ∀ k : BitVec 3, opMajor (0b01000#5 ++ k) ≠ 0x2#4 := by decide
  rw [rddig_code_eq_append, decodeCommand_data_ignored (major k) d 0#64, decodeCommand_hostCommand_rddig]

theorem decodeCommand_init_code (d : Word) : decodeCommand ⟨0x10#8, d⟩ = .ok .init :=
  decodeCommand_data_ignored (by decide) d 0#64

theorem cmdReady_iff (p : Phase) (op : BitVec 8) : cmdReady false p op = true ↔ p = Phase.idle ∨ op = 0x50#8 := by
  obtain ⟨ready, _⟩ := commandsAreAcceptedOrHeld
  exact ready p op

/-- R73: the code of a command other than RDSTAT is accepted only in IDLE. -/
theorem cmdReady_iff_idle (hd : decodeCommand ⟨op, d⟩ = .ok i) (hne : i ≠ .rdstat) (p : Phase) :
    cmdReady false p op = true ↔ p = Phase.idle := by
  have no_poll : op ≠ 0x50#8 := fun hop => hne (Except.ok.inj (hd.symm.trans (decodeCommand_poll hop)))
  rw [cmdReady_iff, or_iff_left no_poll]

/-! ### INIT (R141) -/

theorem exec_init_of_idle (hp : s.phase = Phase.idle) :
    exec .init s = .next { s with H := romIV, HINIT := true, DVALID := false, rsp := none } := by
  rw [exec, execInit, whenIdle_of_idle hp]
  rfl

theorem exec_init_twice (hp : s.phase = Phase.idle) (h : exec .init s = .next u) : exec .init u = .next u := by
  obtain rfl := Host.Outcome.next.inj ((exec_init_of_idle hp).symm.trans h)
  exact exec_init_of_idle hp

/-- Settles O13: after INIT the engine is still in IDLE, so a second one writes the same constants. -/
theorem initLoadsTheInitialState : Obligations.InitLoadsTheInitialState := by
  unfold Obligations.InitLoadsTheInitialState
  refine ⟨decodeCommand_init_code, fun s hp => exec_init_of_idle hp, ?_, fun s u hp h => exec_init_twice hp h⟩
  exact cmdReady_iff_idle (decodeCommand_init_code 0#64) nofun

/-! ### WRBLK (R142) -/

theorem exec_wrblk_of_idle (hp : s.phase = Phase.idle) (k : BitVec 4) (v : Word) :
    exec (.wrblk k v) s = .next { s with M := setElem s.M k.toNat v, rsp := none } := by
  rw [exec, execWrblk, whenIdle_of_idle hp]
  rfl

/-- R59, R142: the last of two writes to one element is the one used. -/
theorem setElem_overwrite {n : Nat} (A : Vector Word n) (i : Nat) (v w : Word) :
    setElem (setElem A i v) i w = setElem A i w := by
  rw [setElem, setElem, setElem, Vector.setIfInBounds_setIfInBounds]

theorem setElem_comm {n : Nat} (A : Vector Word n) {i j : Nat} (h : i ≠ j) (v w : Word) :
    setElem (setElem A i v) j w = setElem (setElem A j w) i v :=
  Vector.setIfInBound_comm v w h

/-- R142: WRBLK keeps the phase, so the next one is accepted too and writes on top of it. -/
theorem exec_wrblk_after_wrblk (hp : s.phase = Phase.idle) {k : BitVec 4} {v : Word} (h : exec (.wrblk k v) s = .next u)
    (l : BitVec 4) (w : Word) :
    exec (.wrblk l w) u = .next { s with M := setElem (setElem s.M k.toNat v) l.toNat w, rsp := none } := by
  obtain rfl := Host.Outcome.next.inj ((exec_wrblk_of_idle hp k v).symm.trans h)
  exact exec_wrblk_of_idle (s := { s with M := setElem s.M k.toNat v, rsp := none }) hp l w

/-- Settles O14: what two WRBLKs leave is what two writes to the block buffer leave. -/
theorem wrblkWritesOneBlockWord : Obligations.WrblkWritesOneBlockWord := by
  unfold Obligations.WrblkWritesOneBlockWord
  refine ⟨decodeCommand_wrblk_code, ?effect, ?accepted, ?twoWrites⟩
  case effect =>
    intro k v s hp
    exact ⟨exec_wrblk_of_idle hp k v, elem_setElem_self s.M k.isLt v, fun j hj => elem_setElem_of_ne s.M hj.symm v⟩
  case accepted => exact fun p k => cmdReady_iff_idle (decodeCommand_wrblk_code k 0#64) nofun p
  case twoWrites =>
    intro k l v w s u hp h
    constructor
    · rintro rfl
      rw [exec_wrblk_after_wrblk hp h, setElem_overwrite, exec_wrblk_of_idle hp]
    · intro hne
      have indices : k.toNat ≠ l.toNat := fun heq => hne (BitVec.eq_of_toNat_eq heq)
      have first := exec_wrblk_of_idle hp l w
      refine ⟨_, first, ?_⟩
      rw [exec_wrblk_after_wrblk hp h, exec_wrblk_after_wrblk hp first, setElem_comm s.M indices]

/-! ### NEXT (R143) -/

theorem exec_next_uninitialised (hp : s.phase = Phase.idle) (hH : s.HINIT = false) :
    exec .next s = .next ((s.raiseProtocolError .nextBeforeInit).respond none) := by
  simp [exec, execNext, whenIdle_of_idle hp, hH]

/-- Settles O15, by HINIT. -/
theorem nextStartsTheSequencer : Obligations.NextStartsTheSequencer := by
  unfold Obligations.NextStartsTheSequencer
  refine ⟨decodeCommand_next, fun s hp hH => exec_next_started hp hH, fun s hp hH => exec_next_uninitialised hp hH, ?_⟩
  exact cmdReady_iff_idle (decodeCommand_next 0#64) nofun

/-! ### RDDIG (R144) -/

theorem exec_rddig_initialised (hp : s.phase = Phase.idle) (hH : s.HINIT = true) (k : BitVec 3) :
    exec (.rddig k) s = .next (s.respond (some (elem s.H k.toNat))) := by
  simp [exec, execRddig, whenIdle_of_idle hp, hH, digestIndex]

theorem exec_rddig_uninitialised (hp : s.phase = Phase.idle) (hH : s.HINIT = false) (k : BitVec 3) :
    exec (.rddig k) s = .next ((s.raiseProtocolError .readBeforeInit).respond (some 0#64)) := by
  simp [exec, execRddig, whenIdle_of_idle hp, hH]

/-- Settles O16: the codes 0x48 to 0x4F are among the illegal ones of R78. -/
theorem rddigReadsOneStateWord : Obligations.RddigReadsOneStateWord := by
  unfold Obligations.RddigReadsOneStateWord
  refine ⟨decodeCommand_rddig_code, ?illegal, fun k s hp hH => exec_rddig_initialised hp hH k,
    fun k s hp hH => exec_rddig_uninitialised hp hH k, ?accepted⟩
  case illegal => exact fun op d lower upper =>
    (decodeCommand_illegal_iff op d).mpr (.inr (.inr (.inr (.inl ⟨lower, upper⟩))))
  case accepted => exact fun p k => cmdReady_iff_idle (decodeCommand_rddig_code k 0#64) nofun p

/-! ### RDSTAT (R145) -/

/-- Settles O18: the meaning of RDSTAT looks at no phase, and the word it responds is STATUS written out. -/
theorem rdstatReadsTheStatus : Obligations.RdstatReadsTheStatus := by
  unfold Obligations.RdstatReadsTheStatus
  refine ⟨fun d => decodeCommand_poll rfl, ?_, fun p => (cmdReady_iff p 0x50#8).mpr (.inr rfl)⟩
  rintro s _ rfl
  rfl

end Sys2Proof.Machine
end

section
/-! PROOF. The padder (spec/45_host_padding.md R162 to R167): the number of blocks, each byte of the padded stream, the words packed
from it, and the messages that are refused. -/

namespace Sys2Proof.Machine

variable {msg : List Byte}

/-! ### The number of blocks (R162) -/

/-- The message, the padding byte and the length field fit in the blocks. -/
theorem add_17_le_blockCount (L : Nat) : L + 17 ≤ 128 * blockCount L := by
  rw [blockCount]
  omega

/-- They do not fit in one block less. -/
theorem blockCount_sub_one_lt (L : Nat) : 128 * (blockCount L - 1) < L + 17 := by
  rw [blockCount]
  omega

/-- Settles O48: the padding byte and the length field reach into one more block from 112 bytes on. -/
theorem blockCountThreshold : Obligations.BlockCountThreshold := by
  unfold Obligations.BlockCountThreshold
  refine fun L => ⟨⟨blockCount_sub_one_lt L, add_17_le_blockCount L⟩, ?below, ?above⟩
  case below => exact fun h => by rw [blockCount]; omega
  case above => exact fun h => by rw [blockCount]; omega

/-! ### The messages refused (R166, R167) -/

theorem pad_of_lt (h : msg.length < 2 ^ 61) :
    pad msg = .ok ((List.range (blockCount msg.length)).map (packBlock (paddedBytes msg))) :=
  if_pos (by omega)

theorem pad_of_ge (h : 2 ^ 61 ≤ msg.length) : pad msg = .error .inputTooLarge :=
  if_neg (by omega)

/-- Settles O50, by the length of the message. -/
theorem inputTooLargeIsTheHosts : Obligations.InputTooLargeIsTheHosts := by
  unfold Obligations.InputTooLargeIsTheHosts
  refine fun msg => ⟨⟨?refused, pad_of_ge⟩, ?large, ?small⟩
  case refused =>
    intro hpad
    by_contra hlt
    cases hpad.symm.trans (pad_of_lt (Nat.lt_of_not_le hlt))
  case large => exact fun h => by simp [sha512, hashCommands, pad_of_ge h]
  case small => exact fun h => ⟨_, pad_of_lt h, by simp [sha512, pad_of_lt h], by simp [hashCommands, pad_of_lt h]⟩

/-- R163, R166: what blocks `pad` answers, and for which messages. -/
theorem pad_ok_iff {blocks : List (Vector Word 16)} : pad msg = .ok blocks ↔
    msg.length < 2 ^ 61 ∧ blocks = (List.range (blockCount msg.length)).map (packBlock (paddedBytes msg)) := by
  obtain h | h := Nat.lt_or_ge msg.length (2 ^ 61)
  · rw [pad_of_lt h, Except.ok.injEq, eq_comm, and_iff_right h]
  · simp only [pad_of_ge h, reduceCtorEq, Nat.not_lt_of_ge h, false_and]

/-! ### The bytes of the padded stream (R163) -/

@[simp] theorem be64_length (x : Word) : (be64 x).length = 8 := by
  simp [be64]

theorem be64_getElem? (x : Word) {k : Nat} (hk : k < 8) : (be64 x)[k]? = some (x.extractLsb' (56 - 8 * k) 8) := by
  simp [be64, hk]

/-- R163 with the zeros of both kinds taken together: they fill the stream up to its last eight bytes. -/
theorem paddedBytes_eq (msg : List Byte) : paddedBytes msg = (msg ++ [0x80#8]) ++
    (List.replicate (128 * blockCount msg.length - 8 - (msg.length + 1)) 0#8 ++ be64 (BitVec.ofNat 64 (8 * msg.length))) := by
  have hz : 128 * blockCount msg.length - 8 - (msg.length + 1) = 128 * blockCount msg.length - msg.length - 17 + 8 := by
    have := add_17_le_blockCount msg.length
    omega
  rw [hz, List.replicate_add, paddedBytes]
  simp only [List.append_assoc]

@[simp] theorem paddedBytes_length (msg : List Byte) : (paddedBytes msg).length = 128 * blockCount msg.length := by
  have := add_17_le_blockCount msg.length
  simp only [paddedBytes_eq, List.length_append, List.length_singleton, List.length_replicate, be64_length]
  omega

theorem paddedBytes_take (msg : List Byte) : (paddedBytes msg).take (msg.length + 1) = msg ++ [0x80#8] := by
  rw [paddedBytes_eq, List.take_left' (by simp)]

theorem paddedBytes_message {m : Nat} (hm : m < msg.length) : (paddedBytes msg)[m]? = msg[m]? := by
  rw [paddedBytes_eq, List.append_assoc, List.getElem?_append_left hm]

theorem paddedBytes_marker (msg : List Byte) : (paddedBytes msg)[msg.length]? = some 0x80#8 := by
  simp [paddedBytes_eq]

theorem paddedBytes_zero {m : Nat} (hlo : msg.length < m) (hhi : m < 128 * blockCount msg.length - 8) :
    (paddedBytes msg)[m]? = some 0#8 := by
  have hlen : (msg ++ [0x80#8]).length = msg.length + 1 := by simp
  rw [paddedBytes_eq, List.getElem?_append_right (by omega), hlen, List.getElem?_append_left (by rw [List.length_replicate]; omega),
    List.getElem?_replicate_of_lt (by omega)]

/-- R163: the last eight bytes are those of the bit length. -/
theorem paddedBytes_lengthField (msg : List Byte) {k : Nat} (hk : k < 8) :
    (paddedBytes msg)[128 * blockCount msg.length - 8 + k]? =
      some ((BitVec.ofNat 64 (8 * msg.length)).extractLsb' (56 - 8 * k) 8) := by
  have hfit := add_17_le_blockCount msg.length
  have hbefore : ((msg ++ [0x80#8]) ++
      List.replicate (128 * blockCount msg.length - 8 - (msg.length + 1)) 0#8).length = 128 * blockCount msg.length - 8 := by
    simp only [List.length_append, List.length_singleton, List.length_replicate]
    omega
  rw [paddedBytes_eq, ← List.append_assoc, List.getElem?_append_right (by omega), hbefore, Nat.add_sub_cancel_left,
    be64_getElem? _ hk]

/-! ### The words of a block (R164, R165) -/

/-- The first `n` of eight bytes, weighted as in R164, leave room in 64 bits for the bytes that follow. -/
theorem sum_weighted_bytes_le (b : Nat → Byte) {n : Nat} (hn : n ≤ 8) :
    ((List.range n).map fun k => (b k).toNat * 2 ^ (8 * (7 - k))).sum + 2 ^ (8 * (8 - n)) ≤ 2 ^ 64 := by
  induction n with
  | zero => simp
  | succ n ih =>
    have hbyte : ((b n).toNat + 1) * 2 ^ (8 * (7 - n)) ≤ 2 ^ 8 * 2 ^ (8 * (7 - n)) := Nat.mul_le_mul_right _ (b n).isLt
    have hexp : 8 * (8 - n) = 8 + 8 * (7 - n) := by omega
    have hfirst := ih (by omega)
    rw [hexp, Nat.pow_add] at hfirst
    rw [List.range_succ, List.map_append, List.sum_append, List.map_singleton, List.sum_singleton, Nat.add_sub_add_right 7 1 n]
    linarith

/-- R164: the sum of a word's eight bytes does not wrap. -/
theorem packWord_toNat (P : List Byte) (at0 : Nat) : (packWord P at0).toNat =
    ((List.range 8).map fun k => (P.getD (at0 + k) 0#8).toNat * 2 ^ (8 * (7 - k))).sum :=
  (BitVec.toNat_ofNat _ _).trans <| Nat.mod_eq_of_lt <| sum_weighted_bytes_le (fun k => P.getD (at0 + k) 0#8) le_rfl

theorem elem_packBlock (P : List Byte) (j : Nat) {i : Nat} (hi : i < 16) :
    elem (packBlock P j) i = packWord P (128 * j + 8 * i) :=
  elem_ofFn _ hi

/-- R165: the high half of the length field. -/
theorem lastBlock_word14 (msg : List Byte) :
    elem (packBlock (paddedBytes msg) (blockCount msg.length - 1)) 14 = 0#64 := by
  have hfit := add_17_le_blockCount msg.length
  rw [elem_packBlock _ _ (by decide)]
  refine packWord_eq_of_bytes fun k hk => ?_
  rw [List.getD_eq_getElem?_getD, paddedBytes_zero (by omega) (by omega)]
  simp

/-- R165: the low half of the length field, the bit length. -/
theorem lastBlock_word15 (msg : List Byte) :
    elem (packBlock (paddedBytes msg) (blockCount msg.length - 1)) 15 = BitVec.ofNat 64 (8 * msg.length) := by
  have hfit := add_17_le_blockCount msg.length
  rw [elem_packBlock _ _ (by decide)]
  refine packWord_eq_of_bytes fun k hk => ?_
  have hat : 128 * (blockCount msg.length - 1) + 8 * 15 + k = 128 * blockCount msg.length - 8 + k := by omega
  rw [hat, List.getD_eq_getElem?_getD, paddedBytes_lengthField msg hk, Option.getD_some]

/-- Settles O49, from the bytes of the stream and the words packed from them. -/
theorem paddedMessageHasItsShape : Obligations.PaddedMessageHasItsShape := by
  unfold Obligations.PaddedMessageHasItsShape
  intro msg blocks hpad
  obtain ⟨hlen, rfl⟩ := pad_ok_iff.mp hpad
  have hword : (BitVec.ofNat 64 (8 * msg.length)).toNat = 8 * msg.length :=
    (BitVec.toNat_ofNat _ _).trans (Nat.mod_eq_of_lt (by omega))
  have hfit := add_17_le_blockCount msg.length
  refine ⟨by simp, paddedBytes_length msg, paddedBytes_take msg, fun m => paddedBytes_zero, ?lengthField, ?beforeLast, ?words,
    packBlock (paddedBytes msg) (blockCount msg.length - 1), ?last, lastBlock_word14 msg, ?word15⟩
  case lengthField =>
    intro k hk
    rw [paddedBytes_lengthField msg hk, BitVec.extractLsb', hword, Nat.shiftRight_eq_div_pow,
      show 56 - 8 * k = 8 * (7 - k) by omega]
  case beforeLast =>
    intro m hm
    have hlast := blockCount_sub_one_lt msg.length
    obtain h | rfl | h := Nat.lt_trichotomy m msg.length
    · rw [if_pos h, paddedBytes_message h]
    · rw [if_neg (Nat.lt_irrefl _), if_pos rfl, paddedBytes_marker]
    · rw [if_neg h.not_gt, if_neg h.ne', paddedBytes_zero h (by omega)]
  case words =>
    intro j B hB i hi
    obtain ⟨_, rfl⟩ : j < blockCount msg.length ∧ packBlock (paddedBytes msg) j = B := by
      simpa [List.getElem?_eq_some_iff] using hB
    rw [elem_packBlock _ _ hi, packWord_toNat]
  case last => simp [List.getLast?_range, blockCount]
  case word15 => rw [lastBlock_word15, hword]

end Sys2Proof.Machine
end

section
/-! PROOF. The digest as text (spec/45_host_padding.md R169): the sixteen digits of a word, their place among the 128 of a digest,
and the number they read back as. -/

namespace Sys2Proof.Machine

/-! ### One digit -/

/-- Sixteen hex digits name the sixteen values of four bits, each at its own place. -/
theorem hexDigits_getElem? (n : BitVec 4) : "0123456789abcdef".toList[n.toNat]? = some (hexDigit n) := by
  decide +revert

theorem idxOf_hexDigit (n : BitVec 4) : "0123456789abcdef".toList.idxOf (hexDigit n) = n.toNat := by
  decide +revert

/-! ### One word -/

@[simp] theorem hexWord_length (x : Word) : (hexWord x).length = 16 := by
  simp [hexWord]

theorem hexWord_getElem? (x : Word) {k : Nat} (hk : k < 16) :
    (hexWord x)[k]? = some (hexDigit (x.extractLsb' (60 - 4 * k) 4)) := by
  simp [hexWord, hk]

/-- The number read so far, with one more hex digit read. -/
def readHexDigit (n : Nat) (c : Char) : Nat := 16 * n + "0123456789abcdef".toList.idxOf c

/-- The leading `n` digits of a word read back as the number above its other `16 - n` digits. -/
theorem foldl_leading_digits (x : Word) {n : Nat} (hn : n ≤ 16) :
    ((List.range n).map fun k => hexDigit (x.extractLsb' (60 - 4 * k) 4)).foldl readHexDigit 0 =
      x.toNat / 2 ^ (4 * (16 - n)) := by
  induction n with
  | zero => exact (Nat.div_eq_of_lt x.isLt).symm
  | succ n ih =>
    have hexp : 4 * (16 - n) = (60 - 4 * n) + 4 := by omega
    have hexp' : 4 * (16 - (n + 1)) = 60 - 4 * n := by omega
    rw [List.range_succ, List.map_append, List.foldl_append, ih (by omega), List.map_singleton, List.foldl_cons, List.foldl_nil,
      readHexDigit, idxOf_hexDigit, BitVec.extractLsb'_toNat, Nat.shiftRight_eq_div_pow, hexp, hexp', Nat.pow_add,
      ← Nat.div_div_eq_div_mul]
    exact Nat.div_add_mod _ _

theorem foldl_hexWord (x : Word) : (hexWord x).foldl readHexDigit 0 = x.toNat := by
  simpa [hexWord] using foldl_leading_digits x le_rfl

/-! ### The eight words -/

/-- Lists of one length `w`, joined: the `i`-th of them stands at `w * i`. -/
theorem take_drop_flatMap_range {α : Type} {w n i : Nat} {f : Nat → List α} (hf : ∀ j, (f j).length = w) (hi : i < n) :
    (((List.range n).flatMap f).drop (w * i)).take w = f i := by
  have hlen : ∀ m, ((List.range m).flatMap f).length = w * m := fun m => by
    simp [List.length_flatMap, hf, Nat.mul_comm]
  induction n with
  | zero => omega
  | succ n ih =>
    rw [List.range_succ, List.flatMap_append, List.flatMap_singleton]
    obtain hlt | rfl := Nat.lt_succ_iff_lt_or_eq.mp hi
    · have hle : w * i + w ≤ w * n := Nat.mul_le_mul_left w hlt
      rw [List.drop_append_of_le_length (by rw [hlen]; omega),
        List.take_append_of_le_length (by rw [List.length_drop, hlen]; omega), ih hlt]
    · rw [List.drop_left' (hlen i), List.take_of_length_le (hf i).le]

@[simp] theorem hexString_toList (h : Vector Word 8) :
    (hexString h).toList = (List.range 8).flatMap fun i => hexWord (elem h i) :=
  String.toList_ofList

@[simp] theorem hexString_length (h : Vector Word 8) : (hexString h).length = 128 := by
  simp [← String.length_toList, List.length_flatMap]

/-- The digits of word `i` stand together, from `16 * i` on. -/
theorem hexString_word (h : Vector Word 8) {i : Nat} (hi : i < 8) :
    ((hexString h).toList.drop (16 * i)).take 16 = hexWord (elem h i) := by
  rw [hexString_toList]
  exact take_drop_flatMap_range (fun _ => hexWord_length _) hi

theorem hexString_getElem? (h : Vector Word 8) {i k : Nat} (hi : i < 8) (hk : k < 16) :
    (hexString h).toList[16 * i + k]? = some (hexDigit ((elem h i).extractLsb' (60 - 4 * k) 4)) := by
  rw [← hexWord_getElem? _ hk, ← hexString_word h hi, List.getElem?_take_of_lt hk, List.getElem?_drop]

/-- Every character of a digest is the digit of some four bits. -/
theorem eq_hexDigit_of_mem_hexString {h : Vector Word 8} {c : Char} (hc : c ∈ (hexString h).toList) :
    ∃ n : BitVec 4, c = hexDigit n := by
  simp only [hexString_toList, hexWord, List.mem_flatMap, List.mem_map] at hc
  obtain ⟨_, -, _, -, rfl⟩ := hc
  exact ⟨_, rfl⟩

/-- Settles O52, from the place of each word's digits and the place of each digit in its word. -/
theorem hexStringHas128Digits : Obligations.HexStringHas128Digits := by
  unfold Obligations.HexStringHas128Digits
  refine fun h => ⟨hexString_length h, ?alphabet, ?digit, ?readBack, fun _ hi => hexString_word h hi⟩
  case alphabet =>
    intro c hc
    obtain ⟨n, rfl⟩ := eq_hexDigit_of_mem_hexString hc
    exact List.mem_of_getElem? (hexDigits_getElem? n)
  case digit => exact fun i k hi hk => (hexString_getElem? h hi hk).trans (hexDigits_getElem? _).symm
  case readBack =>
    intro i hi
    rw [hexString_word h hi]
    exact foldl_hexWord _

end Sys2Proof.Machine
end

section
/-! PROOF. The protocol error (spec/60_exceptions.md R180, R181, R184): what raising it does, and which instructions raise it. -/

namespace Sys2Proof.Machine

/-! ### The action (R184) -/

/-- R184: raising a protocol error, with the cause taken where ERR is 0. -/
theorem raiseProtocolError_eq (s : State) (c : Cause) :
    s.raiseProtocolError c = { s with ECODE := if s.ERR = false then causeCode c else s.ECODE, ERR := true } := by
  cases he : s.ERR with
  | false => simp [State.raiseProtocolError, he]
  | true => simp [State.raiseProtocolError, he]

/-- Settles O20, from the meanings of the three offenders in IDLE. -/
theorem protocolErrorAction : Obligations.ProtocolErrorAction := by
  unfold Obligations.ProtocolErrorAction
  refine ⟨⟨rfl, rfl, rfl⟩, raiseProtocolError_eq, fun s hp => illegalCommand_of_idle hp, fun s hp hH => ?_⟩
  exact ⟨exec_next_uninitialised hp hH, exec_rddig_uninitialised hp hH⟩

/-! ### The instructions that raise it (R180, R181) -/

/-- Settles O28: only NEXT and RDDIG reach the error state at all, and of their cases only the one in IDLE with HINIT = 0
does not keep it. -/
theorem errorsComeOnlyFromUseBeforeInit : Obligations.ErrorsComeOnlyFromUseBeforeInit := by
  unfold Obligations.ErrorsComeOnlyFromUseBeforeInit
  intro i s s' h hne
  have changed : ¬(s'.ERR = s.ERR ∧ s'.ECODE = s.ECODE) := not_and_or.mpr hne
  by_cases hn : i = .next
  · subst hn
    rcases exec_next_cases h with ⟨_, _, rfl⟩ | ⟨hp, hH, _⟩ | ⟨_, rfl⟩
    · exact absurd ⟨rfl, rfl⟩ changed
    · exact ⟨hp, hH, .inl rfl⟩
    · exact absurd ⟨rfl, rfl⟩ changed
  by_cases hr : ∃ k, i = .rddig k
  · obtain ⟨k, rfl⟩ := hr
    rcases exec_rddig_cases h with ⟨_, _, rfl⟩ | ⟨hp, hH, _⟩ | ⟨_, rfl⟩
    · exact absurd ⟨rfl, rfl⟩ changed
    · exact ⟨hp, hH, .inr ⟨k, rfl⟩⟩
    · exact absurd ⟨rfl, rfl⟩ changed
  · obtain ⟨_, _, _, _, _, _, _, _, _, keeps, _⟩ := everyInstructionKeepsWhatItDoesNotWrite i s s' h
    exact absurd (keeps hn fun k hk => hr ⟨k, hk⟩) changed

end Sys2Proof.Machine
end

section
/-! PROOF. The order of turns where none is given (spec/70_reset_and_hazards.md R211): given turns run out, and then a step of the
host's that answers a poll is followed by the engine's. -/

namespace Sys2Proof.Machine

variable {s s' : State} {i : Instr}

/-- No instruction gives or takes a turn. -/
theorem exec_keeps_turns (h : exec i s = .next s') : s'.turns = s.turns := by
  obtain ⟨_, _, _, _, _, _, _, _, _, _, _, _, hturns, _⟩ := everyInstructionKeepsWhatItDoesNotWrite i s s' h
  exact hturns

/-- R8: every step takes one turn, if one is given. -/
theorem step_turns (h : step s = .next s') : s'.turns = s.turns.tail := by
  rcases step_cases h with ⟨n, ts, ht, rfl⟩ |
    ⟨_, ts, rfl, ⟨c, rest, j, _, _, _, he⟩ | ⟨c, rest, e, _, _, _, he⟩ | ⟨j, _, he⟩ | ⟨_, _, rfl⟩⟩
  · rw [resetEvent_turns, ht, List.tail_cons]
  · exact exec_keeps_turns he
  · rcases illegalCommand_cases he with ⟨_, rfl⟩ | ⟨_, rfl⟩ <;> rfl
  · exact exec_keeps_turns he
  · rfl

/-- R80: where the engine goes first an enabled micro-step is taken. -/
theorem takesMicroStep_of_enabled (hi : decodeSeq s.seq = .ok i) (h : EngineFirst s) : takesMicroStep s = true := by
  rw [takesMicroStep_of_run (select_of_engineFirst h hi), decodeSeq_isCommand hi, Bool.not_false]

/-- Where no turn is given and a micro-step is enabled, either it is taken or the step answers a poll. -/
theorem takesMicroStep_or_answers (hi : decodeSeq s.seq = .ok i) (ht : s.turns = []) (h : step s = .next s') :
    takesMicroStep s = true ∨ s'.rsp.isSome = true := by
  have hb : s.phase ≠ Phase.idle := fun hp => decodeSeq_ne_ok_of_idle hp i hi
  cases hr : s.rsp with
  | some v =>
    have engine : EngineTurn s := .inl ⟨ht, by rw [hr, Option.isSome_some]⟩
    exact .inl (takesMicroStep_of_enabled hi (.inl engine))
  | none =>
    have host : HostTurn s := .inl ⟨ht, hr⟩
    by_cases polls : ∃ c, s.cmds.head? = some c ∧ c.op = 0x50#8
    · obtain ⟨c, hc, hop⟩ := polls
      obtain ⟨rest, hcmds⟩ := List.head?_eq_some_iff.mp hc
      obtain rfl := Host.Outcome.next.inj ((step_poll host (seqDefined_of_ok hi) hcmds hop).symm.trans h)
      exact .inr rfl
    · have held : ∀ c, s.cmds.head? = some c → cmdReady false s.phase c.op = false := fun c hc =>
        Bool.eq_false_iff.mpr fun hready => polls ⟨c, hc, (cmdReady_busy hb c.op).mp hready⟩
      exact .inl (takesMicroStep_of_enabled hi (.inr ⟨host, held⟩))

/-- R8: if the environment gives no turns from some point on, those given before run out. -/
theorem OpenRun.turns_run_out {inputs : Nat → List Command × List Turn} {states : Nat → State} (hrun : OpenRun inputs states)
    (quiet : ∃ n, ∀ m, n ≤ m → (inputs m).2 = []) :
    ∃ n, ∀ m, n ≤ m → ((states m).feed (inputs m)).turns = [] := by
  obtain ⟨n, hn⟩ := quiet
  have fed : ∀ m, n ≤ m → ((states m).feed (inputs m)).turns = (states m).turns := fun m hm => by
    rw [State.feed, hn m hm, List.append_nil]
  have dropped : ∀ k, (states (n + k)).turns = (states n).turns.drop k := fun k => by
    induction k with
    | zero => rfl
    | succ k ih => rw [← Nat.add_assoc, step_turns (hrun (n + k)), fed _ (Nat.le_add_right n k), ih, List.tail_drop]
  refine ⟨n + (states n).turns.length, fun m hm => ?_⟩
  obtain ⟨k, rfl⟩ := Nat.exists_eq_add_of_le (Nat.le_of_add_right_le hm)
  rw [fed _ (Nat.le_add_right n k), dropped, List.drop_eq_nil_of_le (Nat.le_of_add_le_add_left hm)]

/-- Settles O55: once no turn is left, the step after an answered poll is the engine's. -/
theorem defaultOrderIsWeaklyFair : Obligations.DefaultOrderIsWeaklyFair := by
  unfold Obligations.DefaultOrderIsWeaklyFair
  intro inputs states hrun quiet n enabled
  obtain ⟨k, no_turns⟩ := hrun.turns_run_out quiet
  let m := max n k
  have hnm : n ≤ m := Nat.le_max_left n k
  have hkm : k ≤ m := Nat.le_max_right n k
  obtain ⟨i, hi⟩ := enabled m hnm
  rcases takesMicroStep_or_answers (s := (states m).feed (inputs m)) hi (no_turns m hkm) (hrun m) with takes | answers
  · exact ⟨m, hnm, takes⟩
  · obtain ⟨j, hj⟩ := enabled (m + 1) (Nat.le_succ_of_le hnm)
    have engine : EngineTurn ((states (m + 1)).feed (inputs (m + 1))) :=
      .inl ⟨no_turns (m + 1) (Nat.le_succ_of_le hkm), answers⟩
    exact ⟨m + 1, Nat.le_succ_of_le hnm, takesMicroStep_of_enabled (s := (states (m + 1)).feed (inputs (m + 1))) hj (.inl engine)⟩

end Sys2Proof.Machine
end
